-- ==== Sys2Proof/Word.lean ====
section
/-! DEFINITION. The word types of B3C (00_scope.md R7, R9). Every value is an unsigned bit vector of a
stated width; there are no signed values. -/

namespace Sys2Proof

/-- A 32-bit word, unsigned, with addition modulo 2^32 (R7 WORD, R9). -/
abbrev Word := BitVec 32

/-- A byte (R9 `u8`). -/
abbrev Byte := BitVec 8

/-- A 64-bit counter or output position (R9 `u64`, R7 COUNTER_BITS). -/
abbrev Word64 := BitVec 64

/-- A chaining value: eight words (R7 CV_WORDS, R12). -/
abbrev ChainingValue := Vector Word 8

end Sys2Proof
end

