-- ==== Sys2Proof/Machine/State.lean ====
section
/-! DEFINITION. The architectural state of B3C as plain data (10_state.md R21), and its reset value
(R22, R53, 70_reset_and_hazards.md R280). -/

namespace Sys2Proof.Machine

/-- The session modes (R41). -/
inductive Mode where
  | none | default | keyed | deriveCtx | deriveMat
  deriving DecidableEq, Repr

/-- The error codes of STATUS.ERR (60_exceptions.md R251); codes 7 to 15 are never written. -/
inductive Err where
  | ok           -- 0: the command completed
  | illegalOp    -- 1: E_ILLEGAL_OP
  | badLen       -- 2: E_BAD_LEN
  | noSession    -- 3: E_NO_SESSION
  | state        -- 4: E_STATE
  | xofRange     -- 5: E_XOF_RANGE
  | capacity     -- 6: E_CAPACITY
  deriving DecidableEq, Repr

/-- The active chunk (R44). `buf_len` is `buf.length`: bytes at and above it are not state. -/
structure Chunk where
  cv      : ChainingValue
  counter : Word64
  buf     : List Byte
  blocks  : Nat            -- blocks_compressed
  flags   : Byte
  deriving DecidableEq, Repr

/-- A HasherState: "root_key[8], ChunkState, CVStack" with its mode-flag byte (R42, R43, R44, R45). The
stack lists the bottom entry first and the top entry last (R45). -/
structure Hasher where
  key   : ChainingValue
  flags : Byte
  chunk : Chunk
  stack : List ChainingValue
  deriving DecidableEq, Repr

/-- The width of a host access in bits (20_memory.md R62); only 32-bit accesses are accepted. -/
inductive AccessWidth where
  | w8 | w16 | w32 | w64
  deriving DecidableEq, Repr

/-- What the host and the platform do in one cycle (20_memory.md R76; 30_encoding.md R99, R100). -/
inductive HostStmt where
  /-- A cycle with no access. -/
  | idle
  /-- A bus read of `width` bits at bus address `addr` (R61, R62). -/
  | read (addr : Nat) (width : AccessWidth)
  /-- A bus write; the value of a write that is not 32 bits wide is immaterial (R62). -/
  | write (addr : Nat) (width : AccessWidth) (value : Word)
  /-- The platform drives the reset input (R280). -/
  | resetInput
  /-- `WAIT`: read STATUS, and again in the next cycle until its bit 0 is 0 (R100). -/
  | wait
  /-- Host control flow: read STATUS and, if a bit of `mask` is set in it, skip the next `n` statements
  (the stop of XOF_READ, R106, and of the nonce search, R237). -/
  | skipIf (mask : Word) (n : Nat)
  deriving DecidableEq, Repr

/-- What the bus answers to a host access (R61, R62, R256). -/
inductive Answer where
  | data (value : Word)         -- a read's value
  | done                        -- a write was taken
  | busError (addr : Nat)       -- an error response, reported with the access's address
  deriving DecidableEq, Repr

/-- A command in progress: the accepted word, and how many host cycles pass before it completes. Its
presence is `st.busy` (R25, R46). -/
structure Running where
  word : Word
  left : Nat
  deriving DecidableEq, Repr

/-- The state of the machine. ID is hard-wired (R23), CMD holds no value (R25), and STATUS and the INFO
registers are views of the fields below (R24, R30 to R32). -/
structure State where
  -- host registers (R26 to R38)
  seekLo  : Word
  seekHi  : Word
  ctrLo   : Word
  ctrHi   : Word
  key     : Vector Word 8
  ccv     : Vector Word 8
  nonce   : Word
  din     : Vector Word 16
  dout    : Vector Word 16
  mhash   : Vector Word 8
  target  : Vector Word 8
  hdr     : Vector Word 45
  -- session state (R41 to R45)
  mode    : Mode
  session : Hasher
  -- status state (R46)
  err     : Err
  chk     : Bool
  wbusy   : Bool
  running : Option Running
  -- the model's own fields: the host's remaining statements, the latest bus answer, and a counter that
  -- makes each free value fresh (assumption log 3, 4, 5)
  host    : List HostStmt
  answer  : Option Answer
  free    : Nat
  deriving DecidableEq, Repr

/-- `st.busy` (R46): 1 from the cycle a command is accepted until it completes. -/
abbrev State.busy (s : State) : Bool := s.running.isSome

/-- Why the machine stops. -/
inductive Fault where
  /-- A host access at an address outside the 512-byte window, which B3C does not decode: "the
  platform's matter" (R60). Raised by `memRead` and `memWrite`. Safe: the machine stops where another
  unit would answer. -/
  | outsideWindow (addr : Nat)
  deriving DecidableEq, Repr

/-- Why an instruction has no meaning. -/
inductive Refusal where
  /-- The instruction has no meaning in the model yet. Raised by a refused arm of `exec` only (there
  is none: every command has its meaning). Safe. -/
  | notModelled (mnemonic : String)
  deriving DecidableEq, Repr

/-- A session's memory right after reset: mode flags 0, an empty chunk and an empty stack (R53).
DESIGN CHOICE (assumption log 1), unsafe: `key` and `chunk.cv` are "any value; unobservable" (R53,
R42); the model names eight zero words for each. -/
def Hasher.reset : Hasher where
  key   := Vector.replicate 8 0
  flags := 0
  chunk := { cv := Vector.replicate 8 0, counter := 0, buf := [], blocks := 0, flags := 0 }
  stack := []

/-- The machine right after the reset input (R22's reset column, R53, R280). -/
def State.reset : State where
  seekLo  := 0
  seekHi  := 0
  ctrLo   := 0
  ctrHi   := 0
  key     := Vector.replicate 8 0
  ccv     := Vector.replicate 8 0
  nonce   := 0
  din     := Vector.replicate 16 0
  dout    := Vector.replicate 16 0
  mhash   := Vector.replicate 8 0
  target  := Vector.replicate 8 0
  hdr     := Vector.replicate 45 0
  mode    := .none
  session := Hasher.reset
  err     := .ok
  chk     := false
  wbusy   := false
  running := none
  host    := []
  answer  := none
  free    := 0

end Sys2Proof.Machine
end

