-- ==== Sys2Proof/Config.lean ====
section
/-! DEFINITION. What an implementation of B3C fixes (00_scope.md R8) and the values the spec leaves free
(70_reset_and_hazards.md R285). Each is opaque: nothing in Lean can evaluate it, so whatever is proved
holds for every value of it. -/

namespace Sys2Proof

/-- The two settings of `MULTI_CHUNK_XOF` (R8, 42_tree_finalize.md R179). -/
inductive MultiChunkXof where
  | restricted | standard
  deriving DecidableEq, Repr, Inhabited

/-- `MULTI_CHUNK_XOF` (R8, D10): whether FINALIZE may read positions 64 and above of a multi-chunk
session's output. The spec's default is `restricted`. Assumption log 2. -/
opaque Config.multiChunkXof : MultiChunkXof

/-- `B3C_BASE` in units of 512 bytes (R8, R60). Assumption log 2. -/
opaque Config.baseIndex : Nat

/-- `B3C_BASE`: any 512-byte-aligned bus address (R8, R60). -/
def Config.base : Nat := 512 * Config.baseIndex

/-- `LATENCY(command, state)` less one: the host cycles that pass while the command accepted in this
state is still running (R8, R289). Finite, and LATENCY is positive, whatever the value. Assumption log 2. -/
opaque Config.latency : Word → Machine.State → Nat

/-- The word a host read of offset `off` returns while BUSY = 1, for an offset other than ID and STATUS:
"any 32-bit value" (R285, U8). The state holds a counter that every such read advances, so no two
reads are known to agree. Assumption log 3. -/
opaque Config.busyRead : Machine.State → Nat → Word

end Sys2Proof
end

