-- ==== Sys2Proof/Syntax.lean ====
section
/-! DEFINITION. The commands of B3C: one constructor per row of the opcode map (30_encoding.md R92). A
command word's LEN and FLG fields are the only operands that vary (R90, R93). -/

namespace Sys2Proof

/-- A command (R92). `len` is the LEN field and `flg` the FLG field of the command word (R90); the
legal lengths are in WellFormed. -/
inductive Instr where
  | init                              -- 0x01 INIT (R201)
  | initKeyed                         -- 0x02 INIT_KEYED (R202)
  | initDerive                        -- 0x03 INIT_DERIVE (R203)
  | deriveMaterial                    -- 0x04 DERIVE_MATERIAL (R204)
  | reset                             -- 0x05 RESET (R205)
  | update (len : Byte)               -- 0x10 UPDATE len (R206)
  | finalize (len : Byte)             -- 0x20 FINALIZE len (R207)
  | compress (len flg : Byte)         -- 0x30 COMPRESS len, flags (R132)
  | mineHash                          -- 0x40 MINE_HASH (R231)
  | mineCheck                         -- 0x41 MINE_CHECK (R233)
  | mineTry                           -- 0x42 MINE_TRY (R234)
  deriving DecidableEq, Repr

end Sys2Proof
end

