-- ==== Sys2Proof/WellFormed.lean ====
section
/-! DEFINITION. The well-formed commands: those the decoder can produce (30_encoding.md R94, R95). -/

namespace Sys2Proof

/-- The largest legal LEN (R95; R7 MAX_UPDATE_LEN, MAX_FINALIZE_LEN). -/
abbrev maxLen : Nat := 64

/-- A command is well formed when its LEN is 0 to 64 (R95); commands of class N have no field to check. -/
abbrev Instr.WellFormed (i : Instr) : Prop :=
  match i with
  | .init | .initKeyed | .initDerive | .deriveMaterial | .reset => True
  | .update len => len.toNat ≤ maxLen
  | .finalize len => len.toNat ≤ maxLen
  | .compress len _ => len.toNat ≤ maxLen
  | .mineHash | .mineCheck | .mineTry => True

end Sys2Proof
end

