-- ==== Sys2Proof/Decode.lean ====
section
/-! DEFINITION. Decoding a command word (30_encoding.md R90 to R97), total on all 2^32 words and refusing
by name, and the encoder of R98 after it. -/

namespace Sys2Proof

/-- The field classes of R93: which of LEN and FLG a command uses as operands. -/
inductive FieldClass where
  | n    -- no operand fields
  | l    -- length only
  | lf   -- length and flags
  deriving DecidableEq, Repr

/-- The two ways decoding refuses a word (R94). -/
inductive DecodeError where
  | illegalOp   -- E_ILLEGAL_OP
  | badLen      -- E_BAD_LEN
  deriving DecidableEq, Repr

/-- One row of the opcode map of R92. `pattern` and `mask` are the row's match and mask columns: a word
`w` selects the row when `w &&& mask = pattern`. `make` builds the command from LEN and FLG. -/
structure OpRow where
  mnemonic : String
  op       : Byte
  cls      : FieldClass
  pattern  : Word
  mask     : Word
  make     : Byte → Byte → Instr

/-- The opcode map, transcribed from the table of R92. -/
def opTable : List OpRow :=
  [ ⟨"INIT",            0x01, .n,  0x00000001, 0xFFFFFFFF, fun _ _ => .init⟩,
    ⟨"INIT_KEYED",      0x02, .n,  0x00000002, 0xFFFFFFFF, fun _ _ => .initKeyed⟩,
    ⟨"INIT_DERIVE",     0x03, .n,  0x00000003, 0xFFFFFFFF, fun _ _ => .initDerive⟩,
    ⟨"DERIVE_MATERIAL", 0x04, .n,  0x00000004, 0xFFFFFFFF, fun _ _ => .deriveMaterial⟩,
    ⟨"RESET",           0x05, .n,  0x00000005, 0xFFFFFFFF, fun _ _ => .reset⟩,
    ⟨"UPDATE",          0x10, .l,  0x00000010, 0xFFFF00FF, fun len _ => .update len⟩,
    ⟨"FINALIZE",        0x20, .l,  0x00000020, 0xFFFF00FF, fun len _ => .finalize len⟩,
    ⟨"COMPRESS",        0x30, .lf, 0x00000030, 0xFF0000FF, fun len flg => .compress len flg⟩,
    ⟨"MINE_HASH",       0x40, .n,  0x00000040, 0xFFFFFFFF, fun _ _ => .mineHash⟩,
    ⟨"MINE_CHECK",      0x41, .n,  0x00000041, 0xFFFFFFFF, fun _ _ => .mineCheck⟩,
    ⟨"MINE_TRY",        0x42, .n,  0x00000042, 0xFFFFFFFF, fun _ _ => .mineTry⟩ ]

/-- OP, bits 7:0 of a command word (R90). -/
def opField (w : Word) : Byte := w.extractLsb' 0 8
/-- LEN, bits 15:8 (R90). -/
def lenField (w : Word) : Byte := w.extractLsb' 8 8
/-- FLG, bits 23:16 (R90). -/
def flgField (w : Word) : Byte := w.extractLsb' 16 8
/-- RSV, bits 31:24, which must be 0 (R90). -/
def rsvField (w : Word) : Byte := w.extractLsb' 24 8

/-- The row whose OP is `op`, if the opcode is assigned (R92). -/
def rowOf (op : Byte) : Option OpRow := opTable.find? fun r => r.op = op

/-- Decode a command word: the checks of R94 in its order, before any effect. -/
def decode (w : Word) : Except DecodeError Instr :=
  let len := lenField w
  let flg := flgField w
  if rsvField w ≠ 0 then .error .illegalOp
  else
    match rowOf (opField w) with
    | none => .error .illegalOp
    | some r =>
      if r.cls = .n ∧ (len ≠ 0 ∨ flg ≠ 0) then .error .illegalOp
      else if r.cls = .l ∧ flg ≠ 0 then .error .illegalOp
      else if r.cls ≠ .n ∧ maxLen < len.toNat then .error .badLen
      else .ok (r.make len flg)

/-- The encoding of R98: `OP | len << 8 | flags << 16`. -/
def encodeFields (op len flg : Byte) : Word :=
  op.setWidth 32 ||| (len.setWidth 32 <<< 8) ||| (flg.setWidth 32 <<< 16)

/-- The command word of a command (R92, R98). -/
def encode (i : Instr) : Word :=
  match i with
  | .init => encodeFields 0x01 0 0
  | .initKeyed => encodeFields 0x02 0 0
  | .initDerive => encodeFields 0x03 0 0
  | .deriveMaterial => encodeFields 0x04 0 0
  | .reset => encodeFields 0x05 0 0
  | .update len => encodeFields 0x10 len 0
  | .finalize len => encodeFields 0x20 len 0
  | .compress len flg => encodeFields 0x30 len flg
  | .mineHash => encodeFields 0x40 0 0
  | .mineCheck => encodeFields 0x41 0 0
  | .mineTry => encodeFields 0x42 0 0

/-- The command the decoder reads from the table word `w`: every command is exactly one 32-bit word
(R97), so the bits above `nbits` are taken as 0 and the whole word goes to the decoder. -/
def decodeTableWord (nbits w : Nat) : Option Instr :=
  match decode (BitVec.ofNat 32 (w % 2 ^ nbits)) with
  | .ok i => some i
  | .error _ => none

end Sys2Proof
end

