-- ==== Sys2Proof/Machine/Operands.lean ====
section
/-! DEFINITION. Operand assembly: byte strings and words (00_scope.md R10), the byte view of a register
array (10_state.md R40) and the register pairs (30_encoding.md R91). -/

namespace Sys2Proof.Machine

/-- `LEbytes(w)`: the four bytes of a word, least significant first (R10). -/
def leBytes (w : Word) : List Byte :=
  [w.extractLsb' 0 8, w.extractLsb' 8 8, w.extractLsb' 16 8, w.extractLsb' 24 8]

/-- Byte `i` of a byte string (R10); a position past its end reads 0, which no rule asks for. -/
def byteAt (b : List Byte) (i : Nat) : Byte := b.getD i 0

/-- `LE32(b, i)`: the little-endian word at byte `i` (R10). -/
def le32 (b : List Byte) (i : Nat) : Word :=
  (byteAt b i).setWidth 32 ||| (byteAt b (i + 1)).setWidth 32 <<< 8
    ||| (byteAt b (i + 2)).setWidth 32 <<< 16 ||| (byteAt b (i + 3)).setWidth 32 <<< 24

/-- `zeros(n)` (R10). -/
def zeros (n : Nat) : List Byte := List.replicate n 0

/-- `BE256(b)`, for a byte string of any length: its value read most significant byte first (R10). -/
def beValue (b : List Byte) : Nat := b.foldl (fun acc x => acc * 256 + x.toNat) 0

/-- A word list as a byte string (R10), which is also `buf(NAME, n)` of a register array (R40). -/
def bufBytes {n : Nat} (v : Vector Word n) : List Byte := v.toList.flatMap leBytes

/-- Writing a byte string of length 4n to a register array: `reg[NAMEi] <- LE32(b, 4i)` (R40). -/
def bufWords (n : Nat) (b : List Byte) : Vector Word n := Vector.ofFn fun i => le32 b (4 * i.val)

/-- A 64-bit value from a register pair, `hi << 32 | lo` (R91). -/
def pair64 (hi lo : Word) : Word64 := hi.setWidth 64 <<< 32 ||| lo.setWidth 64

/-- `seek`, FINALIZE's first output position (R26, R91). -/
def State.seek (s : State) : Word64 := pair64 s.seekHi s.seekLo

/-- `ctr`, COMPRESS's counter input (R27, R91). -/
def State.ctr (s : State) : Word64 := pair64 s.ctrHi s.ctrLo

end Sys2Proof.Machine
end

