-- ==== Sys2Proof/Machine/Flags.lean ====
section
/-! DEFINITION. The flags: domain-separation and mode flags (40_compression.md R122, 43_session.md R200),
and the words the status registers show (10_state.md R24, R30 to R32). -/

namespace Sys2Proof.Machine

/-! Domain-separation flag bits (R122). -/
def chunkStart : Byte := 0x01
def chunkEnd : Byte := 0x02
def parentFlag : Byte := 0x04
def rootFlag : Byte := 0x08
def keyedHash : Byte := 0x10
def deriveKeyContext : Byte := 0x20
def deriveKeyMaterial : Byte := 0x40

/-- The mode-flag byte each session mode fixes (R43, R200). -/
def Mode.flags : Mode → Byte
  | .none => 0x00
  | .default => 0x00
  | .keyed => keyedHash
  | .deriveCtx => deriveKeyContext
  | .deriveMat => deriveKeyMaterial

/-- The encoding of `st.mode` in STATUS.MODE (R41). -/
def Mode.code : Mode → BitVec 3
  | .none => 0
  | .default => 1
  | .keyed => 2
  | .deriveCtx => 3
  | .deriveMat => 4

/-- The encoding of `st.err` in STATUS.ERR (R251). -/
def Err.code : Err → BitVec 4
  | .ok => 0
  | .illegalOp => 1
  | .badLen => 2
  | .noSession => 3
  | .state => 4
  | .xofRange => 5
  | .capacity => 6

/-- The word STATUS reads (R24): BUSY bit 0, ERR bits 7:4, CHECK bit 8, MODE bits 11:9, WBUSY bit 12, and
0 in every other bit. -/
def State.statusWord (s : State) : Word :=
  (BitVec.ofBool s.busy).setWidth 32 ||| s.err.code.setWidth 32 <<< 4
    ||| (BitVec.ofBool s.chk).setWidth 32 <<< 8 ||| s.mode.code.setWidth 32 <<< 9
    ||| (BitVec.ofBool s.wbusy).setWidth 32 <<< 12

/-- INFO_CTR_LO: `st.chunk.counter` bits 31:0 (R30). -/
def State.infoCtrLo (s : State) : Word := s.session.chunk.counter.extractLsb' 0 32

/-- INFO_CTR_HI: `st.chunk.counter` bits 63:32 (R30). -/
def State.infoCtrHi (s : State) : Word := s.session.chunk.counter.extractLsb' 32 32

/-- INFO_CHUNK: buf_len in bits 6:0, blocks_compressed in bits 11:8 (R31). -/
def State.infoChunk (s : State) : Word :=
  (BitVec.ofNat 7 s.session.chunk.buf.length).setWidth 32
    ||| (BitVec.ofNat 4 s.session.chunk.blocks).setWidth 32 <<< 8

/-- INFO_STACK: the stack length in bits 5:0, the mode flags in bits 15:8 (R32). -/
def State.infoStack (s : State) : Word :=
  (BitVec.ofNat 6 s.session.stack.length).setWidth 32 ||| s.session.flags.setWidth 32 <<< 8

end Sys2Proof.Machine
end

