-- ==== Sys2Proof/Machine/Window.lean ====
section
/-! DEFINITION. The register window's map (10_state.md R22, R39; 20_memory.md R69). -/

namespace Sys2Proof.Machine

/-- A register of the window, by name (R22). -/
inductive RegName where
  | id | status | cmd
  | seekLo | seekHi | ctrLo | ctrHi
  | key (i : Fin 8) | ccv (i : Fin 8)
  | infoCtrLo | infoCtrHi | infoChunk | infoStack
  | nonce
  | din (i : Fin 16) | dout (i : Fin 16)
  | mhash (i : Fin 8) | target (i : Fin 8) | hdr (i : Fin 45)
  | reserved (i : Fin 7)
  deriving DecidableEq, Repr

/-- The offsets of the reserved registers (R39). -/
def reservedOffsets : Vector Nat 7 := #v[0x00C, 0x074, 0x078, 0x07C, 0x1F4, 0x1F8, 0x1FC]

/-- The offset of a register from `B3C_BASE` (R22). -/
def RegName.offset : RegName → Nat
  | .id => 0x000
  | .status => 0x004
  | .cmd => 0x008
  | .seekLo => 0x010
  | .seekHi => 0x014
  | .ctrLo => 0x018
  | .ctrHi => 0x01C
  | .key i => 0x020 + 4 * i.val
  | .ccv i => 0x040 + 4 * i.val
  | .infoCtrLo => 0x060
  | .infoCtrHi => 0x064
  | .infoChunk => 0x068
  | .infoStack => 0x06C
  | .nonce => 0x070
  | .din i => 0x080 + 4 * i.val
  | .dout i => 0x0C0 + 4 * i.val
  | .mhash i => 0x100 + 4 * i.val
  | .target i => 0x120 + 4 * i.val
  | .hdr i => 0x140 + 4 * i.val
  | .reserved i => reservedOffsets[i]

/-- The register at offset `off` of the window, for `off` a multiple of 4 below 0x200 (R22). -/
def regAt (off : Nat) : RegName :=
  if off < 0x004 then .id
  else if off < 0x008 then .status
  else if off < 0x00C then .cmd
  else if off < 0x010 then .reserved 0
  else if off < 0x014 then .seekLo
  else if off < 0x018 then .seekHi
  else if off < 0x01C then .ctrLo
  else if off < 0x020 then .ctrHi
  else if off < 0x040 then .key (Fin.ofNat 8 ((off - 0x020) / 4))
  else if off < 0x060 then .ccv (Fin.ofNat 8 ((off - 0x040) / 4))
  else if off < 0x064 then .infoCtrLo
  else if off < 0x068 then .infoCtrHi
  else if off < 0x06C then .infoChunk
  else if off < 0x070 then .infoStack
  else if off < 0x074 then .nonce
  else if off < 0x080 then .reserved (Fin.ofNat 7 (1 + (off - 0x074) / 4))
  else if off < 0x0C0 then .din (Fin.ofNat 16 ((off - 0x080) / 4))
  else if off < 0x100 then .dout (Fin.ofNat 16 ((off - 0x0C0) / 4))
  else if off < 0x120 then .mhash (Fin.ofNat 8 ((off - 0x100) / 4))
  else if off < 0x140 then .target (Fin.ofNat 8 ((off - 0x120) / 4))
  else if off < 0x1F4 then .hdr (Fin.ofNat 45 ((off - 0x140) / 4))
  else .reserved (Fin.ofNat 7 (4 + (off - 0x1F4) / 4))

/-- Whether the access column of R22 says RW: the registers a host write updates. -/
def RegName.isRW : RegName → Bool
  | .seekLo | .seekHi | .ctrLo | .ctrHi | .key _ | .ccv _ | .nonce | .din _ | .mhash _ | .target _
  | .hdr _ => true
  | .id | .status | .cmd | .infoCtrLo | .infoCtrHi | .infoChunk | .infoStack | .dout _
  | .reserved _ => false

end Sys2Proof.Machine
end

