-- ==== Sys2Proof/Machine/Ops.lean ====
section
/-! DEFINITION. The named operations over the machine's registers, and how a command ends: completing
(60_exceptions.md R250) and raising an error (R252), the one shared operation every error takes. -/

namespace Sys2Proof.Machine

/-- The outcome of a step of this machine. -/
abbrev Result := Host.Outcome State Fault Refusal

/-- The identification word (R23). -/
def idWord : Word := 0x42334331

/-- The value a register reads while BUSY = 0 (R23 to R39); ID and STATUS read so at any time (R285). -/
def readReg (s : State) (r : RegName) : Word :=
  match r with
  | .id => idWord
  | .status => s.statusWord
  | .cmd => 0
  | .seekLo => s.seekLo
  | .seekHi => s.seekHi
  | .ctrLo => s.ctrLo
  | .ctrHi => s.ctrHi
  | .key i => s.key[i]
  | .ccv i => s.ccv[i]
  | .infoCtrLo => s.infoCtrLo
  | .infoCtrHi => s.infoCtrHi
  | .infoChunk => s.infoChunk
  | .infoStack => s.infoStack
  | .nonce => s.nonce
  | .din i => s.din[i]
  | .dout i => s.dout[i]
  | .mhash i => s.mhash[i]
  | .target i => s.target[i]
  | .hdr i => s.hdr[i]
  | .reserved _ => 0

/-- `reg[NAME] <- v` for a host write while BUSY = 0 (R61): an RW register takes the value; a read-only
or reserved one ignores it (R22, R39). CMD and STATUS have effects of their own in `memWrite`. -/
def writeReg (s : State) (r : RegName) (v : Word) : State :=
  match r with
  | .seekLo => { s with seekLo := v }
  | .seekHi => { s with seekHi := v }
  | .ctrLo => { s with ctrLo := v }
  | .ctrHi => { s with ctrHi := v }
  | .key i => { s with key := s.key.set i v }
  | .ccv i => { s with ccv := s.ccv.set i v }
  | .nonce => { s with nonce := v }
  | .din i => { s with din := s.din.set i v }
  | .mhash i => { s with mhash := s.mhash.set i v }
  | .target i => { s with target := s.target.set i v }
  | .hdr i => { s with hdr := s.hdr.set i v }
  | .id | .status | .cmd | .infoCtrLo | .infoCtrHi | .infoChunk | .infoStack | .dout _
  | .reserved _ => s

/-- A command completes: `st.err <- 0`, and BUSY returns to 0 (R250, R283). -/
def State.complete (s : State) : State := { s with err := .ok, running := none }

/-- `raise E_<NAME>`: the command ends with its error code in STATUS.ERR, BUSY returns to 0, and nothing
else is written (R252). -/
def State.raise (e : Err) (s : State) : State := { s with err := e, running := none }

/-- The error code of a decoding refusal (R94, R251). -/
def Err.ofDecode : DecodeError → Err
  | .illegalOp => .illegalOp
  | .badLen => .badLen

end Sys2Proof.Machine
end

