-- ==== Sys2Proof/Machine/Bus.lean ====
section
/-! DEFINITION. The host's side of the machine: bus accesses (20_memory.md R61 to R65), the reset input
(70_reset_and_hazards.md R280), and one host cycle. -/

namespace Sys2Proof.Machine

/-- Whether a bus address lies in the 512-byte window (R60). An access is in the window when its first address
is: DESIGN CHOICE (assumption log 6), since R60 does not say what an access is that starts below B3C_BASE
and reaches into the window. -/
abbrev inWindow (addr : Nat) : Prop := Config.base ≤ addr ∧ addr < Config.base + 512

/-- Whether B3C takes an access in the window: 32 bits wide, at an offset that is a multiple of 4
(R62, R63). -/
abbrev accepts (addr : Nat) (width : AccessWidth) : Prop :=
  width = .w32 ∧ (addr - Config.base) % 4 = 0

/-- The bus gives the host an answer (R61, R62). -/
def State.answerWith (a : Answer) (s : State) : State := { s with answer := some a }

/-- The value an answered read returns to the host: a read answered with a bus error returns 0 (R62). -/
def Answer.readValue : Answer → Word
  | .data v => v
  | .done => 0
  | .busError _ => 0

/-- A read of offset `off` (R61): while busy, a read of anything but ID and STATUS gets a free value, and
the counter that keeps free values fresh advances (R285); otherwise the register's value. -/
def readAt (s : State) (off : Nat) : State :=
  if s.busy = true ∧ off ≠ 0x000 ∧ off ≠ 0x004 then
    { s with free := s.free + 1 }.answerWith (.data (Config.busyRead s off))
  else s.answerWith (.data (readReg s (regAt off)))

/-- `MemRead(addr, width)` (R61): a bus error changes nothing but the answer (R62, R63, R256). -/
def memRead (addr : Nat) (width : AccessWidth) (s : State) : Result :=
  if ¬ inWindow addr then .fault (.outsideWindow addr)
  else if ¬ accepts addr width then .next (s.answerWith (.busError addr))
  else .next (readAt s (addr - Config.base))

/-- A command word is accepted (R25): BUSY is 1 until it completes, LATENCY cycles on (R289). -/
def State.accept (s : State) (w : Word) : State :=
  { s with running := some ⟨w, Config.latency w s⟩ }

/-- A write taken while BUSY = 0, at offset `off` (R61): CMD starts a command (R25), STATUS clears WBUSY
by bit 12 (R24), an RW register takes the value, and anything else ignores it. -/
def writeIdle (s : State) (off : Nat) (v : Word) : State :=
  match regAt off with
  | .cmd => s.accept v
  | .status => if v.getLsbD 12 then { s with wbusy := false } else s
  | r => writeReg s r v

/-- A write at offset `off`: while BUSY = 1 it is ignored and sets WBUSY (R284). -/
def writeAt (s : State) (off : Nat) (v : Word) : State :=
  if s.busy = true then { s with wbusy := true } else writeIdle s off v

/-- `MemWrite(addr, width, v)` (R61); bus errors as for a read. -/
def memWrite (addr : Nat) (width : AccessWidth) (v : Word) (s : State) : Result :=
  if ¬ inWindow addr then .fault (.outsideWindow addr)
  else if ¬ accepts addr width then .next (s.answerWith (.busError addr))
  else .next ((writeAt s (addr - Config.base) v).answerWith .done)

/-- The reset input (R280): every piece of the block's state takes its reset value, and a command in
progress is abandoned. What the host has still to do, and the freshness counter, are not the block's. -/
def State.resetInput (s : State) : State := { State.reset with host := s.host, free := s.free }

/-- A host read of STATUS, whose value is the answer. -/
def State.readStatus (s : State) : State := s.answerWith (.data s.statusWord)

/-- One statement of the host, already taken off the list (R99, R100, R106). -/
def serve (h : HostStmt) (s : State) : Result :=
  match h with
  | .idle => .next s
  | .read addr width => memRead addr width s
  | .write addr width v => memWrite addr width v s
  | .resetInput => .next s.resetInput
  | .wait => .next (if s.busy then { s with host := .wait :: s.host } else s).readStatus
  | .skipIf mask n =>
    .next (if s.statusWord &&& mask ≠ 0 then { s with host := s.host.drop n } else s).readStatus

/-- One cycle passes for the command in progress, if there is one (R289). -/
def State.tick (s : State) : State :=
  match s.running with
  | some ⟨w, left + 1⟩ => { s with running := some ⟨w, left⟩ }
  | _ => s

/-- One host cycle: the next statement is taken and served; with none left, the host is idle. -/
def hostCycle (s : State) : Result :=
  match s.host with
  | [] => .next s
  | h :: rest => serve h { s with host := rest }

end Sys2Proof.Machine
end

