-- ==== Sys2Proof/Machine/Compression.lean ====
section
/-! DEFINITION. The CompressionCore and the COMPRESS command (40_compression.md). -/

namespace Sys2Proof.Machine

/-- The sixteen-word state of the compression function (R127), and its message words (R124). -/
abbrev Block16 := Vector Word 16

/-- `rotr32(x, n)` for 0 < n < 32 (00_scope.md R9). -/
def rotr32 (x : Word) (n : Nat) : Word := x >>> n ||| x <<< (32 - n)

/-- IV, the eight initialisation words (R121). -/
def iv : ChainingValue :=
  #v[0x6A09E667, 0xBB67AE85, 0x3C6EF372, 0xA54FF53A, 0x510E527F, 0x9B05688C, 0x1F83D9AB, 0x5BE0CD19]

/-- `SCHED[r][j]`, the message schedule, one row a round (R123). -/
def sched : List (Vector (Fin 16) 16) :=
  [ #v[0, 1, 2, 3, 4, 5, 6, 7, 8, 9, 10, 11, 12, 13, 14, 15],
    #v[2, 6, 3, 10, 7, 0, 4, 13, 1, 11, 12, 5, 9, 14, 15, 8],
    #v[3, 4, 10, 12, 13, 2, 7, 14, 6, 5, 9, 0, 11, 15, 8, 1],
    #v[10, 7, 12, 9, 14, 3, 13, 15, 4, 0, 11, 2, 5, 8, 1, 6],
    #v[12, 13, 9, 11, 15, 10, 14, 8, 7, 2, 5, 3, 0, 1, 6, 4],
    #v[9, 14, 11, 5, 8, 12, 15, 1, 13, 3, 0, 10, 2, 6, 4, 7],
    #v[11, 15, 5, 0, 1, 9, 8, 6, 14, 10, 2, 12, 3, 4, 7, 13] ]

/-- The quarter-round G (R125): eight steps in order, each seeing the ones before. -/
def quarterRound (v : Block16) (a b c d : Fin 16) (mx my : Word) : Block16 :=
  let v := v.set a (v[a] + v[b] + mx)
  let v := v.set d (rotr32 (v[d] ^^^ v[a]) 16)
  let v := v.set c (v[c] + v[d])
  let v := v.set b (rotr32 (v[b] ^^^ v[c]) 12)
  let v := v.set a (v[a] + v[b] + my)
  let v := v.set d (rotr32 (v[d] ^^^ v[a]) 8)
  let v := v.set c (v[c] + v[d])
  v.set b (rotr32 (v[b] ^^^ v[c]) 7)

/-- A round: four columns, then four diagonals, message words in schedule order (R126). -/
def roundStep (v m : Block16) (s : Vector (Fin 16) 16) : Block16 :=
  let v := quarterRound v 0 4 8 12 m[s[0]] m[s[1]]
  let v := quarterRound v 1 5 9 13 m[s[2]] m[s[3]]
  let v := quarterRound v 2 6 10 14 m[s[4]] m[s[5]]
  let v := quarterRound v 3 7 11 15 m[s[6]] m[s[7]]
  let v := quarterRound v 0 5 10 15 m[s[8]] m[s[9]]
  let v := quarterRound v 1 6 11 12 m[s[10]] m[s[11]]
  let v := quarterRound v 2 7 8 13 m[s[12]] m[s[13]]
  quarterRound v 3 4 9 14 m[s[14]] m[s[15]]

/-- The state the rounds start from (R127): cv, IV[0..3], the two counter words, block_len, flags. -/
def initBlock (cv : ChainingValue) (blockLen : Nat) (counter : Word64) (flags : Byte) : Block16 :=
  cv ++ #v[iv[0], iv[1], iv[2], iv[3], counter.extractLsb' 0 32, counter.extractLsb' 32 32,
    BitVec.ofNat 32 blockLen, flags.setWidth 32]

/-- The message words of a block (R124): all 64 bytes, whatever block_len is. -/
def messageWords (block : List Byte) : Block16 := bufWords 16 block

/-- The state after the seven rounds (R127). -/
def sevenRounds (v m : Block16) : Block16 := sched.foldl (fun v s => roundStep v m s) v

/-- `compress_wide`: sixteen words (R128). -/
def compressWide (cv : ChainingValue) (block : List Byte) (blockLen : Nat) (counter : Word64)
    (flags : Byte) : Block16 :=
  let v := sevenRounds (initBlock cv blockLen counter flags) (messageWords block)
  Vector.ofFn fun i =>
    if h : i.val < 8 then v[i] ^^^ v[i.val + 8] else v[i] ^^^ cv[i.val - 8]'(by omega)

/-- `compress_cv`: the first eight words of the wide output (R129). -/
def compressCv (cv : ChainingValue) (block : List Byte) (blockLen : Nat) (counter : Word64)
    (flags : Byte) : ChainingValue :=
  let w := compressWide cv block blockLen counter flags
  Vector.ofFn fun i : Fin 8 => w[i.val]

/-- COMPRESS len, flags (R132): one raw compression of CCV, DIN, CTR in wide mode, into DOUT. It runs in
any mode and touches no session state; DIN is used as it stands (R131). -/
def execCompress (len flg : Byte) (s : State) : Result :=
  if maxLen < len.toNat then .next (s.raise .badLen)
  else
    let out := compressWide s.ccv (bufBytes s.din) len.toNat s.ctr flg
    .next { s with dout := out }.complete

end Sys2Proof.Machine
end

