-- ==== Sys2Proof/Machine/ChunkState.lean ====
section
/-! DEFINITION. The chunk accumulator (41_chunk.md). `F` is the session's mode-flag byte. -/

namespace Sys2Proof.Machine

/-- BLOCK_LEN in bytes (00_scope.md R7). -/
abbrev blockLen : Nat := 64

/-- CHUNK_LEN in bytes (R7). -/
abbrev chunkLen : Nat := 1024

/-- `chunk_init(seed, F, ctr)`: a fresh chunk (R150). -/
def chunkInit (seed : ChainingValue) (F : Byte) (ctr : Word64) : Chunk where
  cv := seed
  counter := ctr
  buf := []
  blocks := 0
  flags := F

/-- `chunk_len()` (R151). -/
def Chunk.len (c : Chunk) : Nat := blockLen * c.blocks + c.buf.length

/-- `start_flag()`: CHUNK_START exactly on the chunk's first block (R152). -/
def Chunk.startFlag (c : Chunk) : Byte := if c.blocks = 0 then chunkStart else 0

/-- Compress one whole block of the chunk (R153): the new chaining value, one more block. -/
def Chunk.compressBlock (F : Byte) (c : Chunk) (block : List Byte) : Chunk :=
  { c with cv := compressCv c.cv block blockLen c.counter (F ||| c.startFlag), blocks := c.blocks + 1 }

/-- Step (1) of `chunk_update` (R153): top up a pending partial buffer, and compress it if it is full and
more input follows. The rest of the input is returned beside the chunk. -/
def chunkTopUp (F : Byte) (c : Chunk) (b : List Byte) : Chunk × List Byte :=
  if 0 < c.buf.length then
    let take := min (blockLen - c.buf.length) b.length
    let c := { c with buf := c.buf ++ b.take take }
    let b := b.drop take
    if c.buf.length = blockLen ∧ 0 < b.length then
      ({ c.compressBlock F c.buf with buf := [] }, b)
    else (c, b)
  else (c, b)

/-- Step (2) of `chunk_update` (R153): compress whole blocks while more than 64 bytes remain. `fuel`
bounds the loop; the input's length is enough. -/
def chunkWholeBlocks (F : Byte) : Nat → Chunk → List Byte → Chunk × List Byte
  | 0, c, b => (c, b)
  | fuel + 1, c, b =>
    if blockLen < b.length then
      chunkWholeBlocks F fuel (c.compressBlock F (b.take blockLen)) (b.drop blockLen)
    else (c, b)

/-- `chunk_update(b)` (R153): top up, compress whole blocks, buffer the rest. It never sets CHUNK_END, and
the chunk's last block stays in the buffer. -/
def chunkUpdate (F : Byte) (c : Chunk) (b : List Byte) : Chunk :=
  let (c, b) := chunkTopUp F c b
  let (c, b) := chunkWholeBlocks F b.length c b
  { c with buf := c.buf ++ b }

/-- A node: compression inputs held uncompressed (R155). -/
structure Node where
  cv       : ChainingValue
  block    : List Byte
  blockLen : Nat
  counter  : Word64
  flags    : Byte
  deriving DecidableEq, Repr

/-- `node_cv(n)` (R155). -/
def nodeCv (n : Node) : ChainingValue := compressCv n.cv n.block n.blockLen n.counter n.flags

/-- `chunk_output_node()`: the node of the chunk's final block, zero-padded, with CHUNK_END (R154). -/
def chunkOutputNode (F : Byte) (c : Chunk) : Node where
  cv := c.cv
  block := c.buf ++ zeros (blockLen - c.buf.length)
  blockLen := c.buf.length
  counter := c.counter
  flags := F ||| c.startFlag ||| chunkEnd

end Sys2Proof.Machine
end

