-- ==== Sys2Proof/Machine/Tree.lean ====
section
/-! DEFINITION. The CV-stack merge engine and the output finalizer (42_tree_finalize.md). -/

namespace Sys2Proof.Machine

/-- STACK_CAP, the capacity of the CV stack (00_scope.md R7, R170). -/
abbrev stackCap : Nat := 55

/-- The number of one bits among the `bits` lowest bits of `n`. -/
def popcountBits : Nat → Nat → Nat
  | 0, _ => 0
  | bits + 1, n => n % 2 + popcountBits bits (n / 2)

/-- `popcount(n)` (00_scope.md R9) for n up to 2^64, the largest chunk total a 64-bit counter gives. -/
def popcount (n : Nat) : Nat := popcountBits 65 n

/-- `parent_node(left, right)`: the two child CVs, left first, under the session key (R171). -/
def parentNode (K : ChainingValue) (F : Byte) (left right : ChainingValue) : Node where
  cv := K
  block := bufBytes left ++ bufBytes right
  blockLen := blockLen
  counter := 0
  flags := F ||| parentFlag

/-- The merge loop of `push_cv` (R172): while the stack is longer than `popcount(total)`, replace its two
top entries by their parent. `fuel` bounds the loop; the stack's length is enough. -/
def mergeLoop (K : ChainingValue) (F : Byte) (total : Nat) :
    Nat → List ChainingValue → List ChainingValue
  | 0, stack => stack
  | fuel + 1, stack =>
    if popcount total < stack.length then
      match stack.reverse with
      | right :: left :: rest =>
        mergeLoop K F total fuel (rest.reverse ++ [nodeCv (parentNode K F left right)])
      | _ => stack
    else stack

/-- `push_cv(new_cv, total)`: push, then merge on carries (R172; the order is 90_conflicts.md C1's). -/
def pushCv (K : ChainingValue) (F : Byte) (stack : List ChainingValue) (newCv : ChainingValue)
    (total : Nat) : List ChainingValue :=
  let stack := stack ++ [newCv]
  mergeLoop K F total stack.length stack

/-- The full chunk is output and pushed, and the next chunk begins (R174). -/
def Hasher.nextChunk (m : Hasher) : Hasher :=
  let cv := nodeCv (chunkOutputNode m.flags m.chunk)
  let total := m.chunk.counter.toNat + 1
  { m with
    stack := pushCv m.key m.flags m.stack cv total
    chunk := chunkInit m.key m.flags (BitVec.ofNat 64 total) }

/-- The loop of `hasher_update` (R174). `fuel` bounds it; the input's length is enough, since each turn
takes at least one byte. -/
def hasherLoop : Nat → Hasher → List Byte → Hasher
  | 0, m, _ => m
  | fuel + 1, m, b =>
    if b = [] then m
    else
      let m := if m.chunk.len = chunkLen then m.nextChunk else m
      let take := min (chunkLen - m.chunk.len) b.length
      hasherLoop fuel { m with chunk := chunkUpdate m.flags m.chunk (b.take take) } (b.drop take)

/-- `hasher_update(b)`: absorb a byte string of any length (R174). -/
def hasherUpdate (m : Hasher) (b : List Byte) : Hasher := hasherLoop b.length m b

/-- The fold of `root_node` (R177) over a non-empty stack, top entry `left` first: each entry becomes the
left child of what lies to its right; the bottom combination is returned uncompressed. -/
def rootFold (K : ChainingValue) (F : Byte) :
    ChainingValue → ChainingValue → List ChainingValue → Node
  | right, left, [] => parentNode K F left right
  | right, left, below :: rest => rootFold K F (nodeCv (parentNode K F left right)) below rest

/-- `root_node()`: the node whose output is the hash (R177). -/
def rootNode (m : Hasher) : Node :=
  match m.stack.reverse with
  | [] => chunkOutputNode m.flags m.chunk
  | top :: rest => rootFold m.key m.flags (nodeCv (chunkOutputNode m.flags m.chunk)) top rest

/-- Output block `t` of a node: its wide compression with ROOT added and `t` as the counter (R178). -/
def outputBlock (n : Node) (t : Nat) : List Byte :=
  bufBytes (compressWide n.cv n.block n.blockLen (BitVec.ofNat 64 t) (n.flags ||| rootFlag))

/-- Byte `p` of a node's output stream (R178); positions are exact integers. -/
def streamByte (n : Node) (p : Nat) : Byte := byteAt (outputBlock n (p / blockLen)) (p % blockLen)

/-- `root_bytes(n, seek, len)` (R178). -/
def rootBytes (n : Node) (seek len : Nat) : List Byte :=
  (List.range len).map fun j => streamByte n (seek + j)

/-- `finalize_bytes(seek, len)` under a setting of `MULTI_CHUNK_XOF` (R179, R180). -/
def finalizeBytes (xof : MultiChunkXof) (m : Hasher) (seek len : Nat) : Except Err (List Byte) :=
  if len = 0 then .ok []
  else if m.stack ≠ [] ∧ 64 < seek + len ∧ xof = .restricted then .error .xofRange
  else .ok (rootBytes (rootNode m) seek len)

/-- `finalize_bytes(0, 32)`, which cannot raise since 0 + 32 ≤ 64 (R204, R235): the 32-byte digest. That
it is that call is the lemma finalizeBytes_zero_32 of Laws/Tree.lean. -/
def digest32 (m : Hasher) : List Byte := rootBytes (rootNode m) 0 32

end Sys2Proof.Machine
end

