-- ==== Sys2Proof/Machine/Session.lean ====
section
/-! DEFINITION. The session commands (43_session.md): the modes, INIT, INIT_KEYED, INIT_DERIVE,
DERIVE_MATERIAL, RESET, UPDATE, FINALIZE. -/

namespace Sys2Proof.Machine

/-- A fresh HasherState with key `k` and mode flags `f` (R208). -/
def freshHasher (k : ChainingValue) (f : Byte) : Hasher where
  key := k
  flags := f
  chunk := chunkInit k f 0
  stack := []

/-- `session_start(k, f, m)`: nothing but the session and its mode is written (R208). -/
def State.sessionStart (s : State) (k : ChainingValue) (f : Byte) (m : Mode) : State :=
  { s with session := freshHasher k f, mode := m }

/-- INIT (R201). -/
def execInit (s : State) : Result :=
  .next (s.sessionStart iv 0x00 .default).complete

/-- INIT_KEYED: the key is KEY0..KEY7 as they stand (R202). -/
def execInitKeyed (s : State) : Result :=
  .next (s.sessionStart s.key keyedHash .keyed).complete

/-- INIT_DERIVE (R203). -/
def execInitDerive (s : State) : Result :=
  .next (s.sessionStart iv deriveKeyContext .deriveCtx).complete

/-- DERIVE_MATERIAL (R204): the context key is the first 32 bytes of the context phase's root output,
as eight little-endian words. -/
def execDeriveMaterial (s : State) : Result :=
  if s.mode = .none then .next (s.raise .noSession)
  else if s.mode ≠ .deriveCtx then .next (s.raise .state)
  else
    let ck := bufWords 8 (digest32 s.session)
    .next (s.sessionStart ck deriveKeyMaterial .deriveMat).complete

/-- RESET (R205): mask the flags as the source does, and start the chunk and the stack over; the key and
the mode stay. In mode DERIVE_CTX it raises E_STATE (90_conflicts.md C7). -/
def execReset (s : State) : Result :=
  if s.mode = .none then .next (s.raise .noSession)
  else if s.mode = .deriveCtx then .next (s.raise .state)
  else
    let f := s.session.flags &&& (keyedHash ||| deriveKeyMaterial)
    .next { s with session := freshHasher s.session.key f }.complete

/-- Whether the chunk push of an UPDATE of `len` bytes would make the CV stack exceed 55 entries (R173,
R251): the bytes run past the active chunk, and the stack has no room for its CV. DEDUCED (assumption
log 10): R206's pseudocode tests for an already full chunk only. -/
abbrev pushOverflows (m : Hasher) (len : Nat) : Prop :=
  0 < len ∧ chunkLen < m.chunk.len + len ∧ stackCap < m.stack.length + 1

/-- UPDATE len (R206): absorb the first `len` bytes of DIN. -/
def execUpdate (len : Byte) (s : State) : Result :=
  if maxLen < len.toNat then .next (s.raise .badLen)
  else if s.mode = .none then .next (s.raise .noSession)
  else if pushOverflows s.session len.toNat then .next (s.raise .capacity)
  else
    let b := (bufBytes s.din).take len.toNat
    .next { s with session := hasherUpdate s.session b }.complete

/-- FINALIZE len (R207): the first `len` bytes of DOUT take the output bytes from SEEK on; the others
keep their value. The session is only read. -/
def execFinalize (len : Byte) (s : State) : Result :=
  if maxLen < len.toNat then .next (s.raise .badLen)
  else if s.mode = .none then .next (s.raise .noSession)
  else
    match finalizeBytes Config.multiChunkXof s.session s.seek.toNat len.toNat with
    | .error e => .next (s.raise e)
    | .ok out =>
      let d := out ++ (bufBytes s.dout).drop len.toNat
      .next { s with dout := bufWords 16 d }.complete

end Sys2Proof.Machine
end

