-- ==== Sys2Proof/Machine/Mining.lean ====
section
/-! DEFINITION. The mining adapter (44_mining.md): nonce injection, the one-shot hash, the big-endian
difficulty comparison, and the commands MINE_HASH, MINE_CHECK, MINE_TRY. -/

namespace Sys2Proof.Machine

/-- NONCE_OFFSET (00_scope.md R7). -/
abbrev nonceOffset : Nat := 140

/-- `work_header()`: a copy of the header whose bytes 140 to 143 are the nonce, little-endian (R230). -/
def workHeader (s : State) : List Byte :=
  let x := bufBytes s.hdr
  let x := x.set nonceOffset (s.nonce.extractLsb' 0 8)
  let x := x.set (nonceOffset + 1) (s.nonce.extractLsb' 8 8)
  let x := x.set (nonceOffset + 2) (s.nonce.extractLsb' 16 8)
  x.set (nonceOffset + 3) (s.nonce.extractLsb' 24 8)

/-- `meets(h, t)`: the bytes are compared from the first on, and the first difference decides; equality
passes (R232). -/
def meets : List Byte → List Byte → Bool
  | h :: hs, t :: ts => if t < h then false else if h < t then true else meets hs ts
  | _, _ => true

/-- `oneshot_hash(x)`: the default-mode digest, on a scratch HasherState (R235). -/
def oneshotHash (x : List Byte) : List Byte := digest32 (hasherUpdate (freshHasher iv 0x00) x)

/-- Write the digest of the working header to MHASH (R231). -/
def State.mineHash (s : State) : State := { s with mhash := bufWords 8 (oneshotHash (workHeader s)) }

/-- Write the comparison of MHASH with TARGET to CHECK (R233). -/
def State.mineCheck (s : State) : State :=
  { s with chk := meets (bufBytes s.mhash) (bufBytes s.target) }

/-- MINE_HASH (R231). -/
def execMineHash (s : State) : Result := .next s.mineHash.complete

/-- MINE_CHECK (R233). -/
def execMineCheck (s : State) : Result := .next s.mineCheck.complete

/-- MINE_TRY (R234): the comparison sees the MHASH this command wrote. -/
def execMineTry (s : State) : Result := .next s.mineHash.mineCheck.complete

end Sys2Proof.Machine
end

