-- ==== Sys2Proof/Machine/Dispatch.lean ====
section
/-! DEFINITION. The meaning of each command, one arm per row of the opcode map (30_encoding.md R92). -/

namespace Sys2Proof.Machine

def exec (i : Instr) (s : State) : Host.Outcome State Fault Refusal :=
  match i with
  | .init => Sys2Proof.Machine.execInit s
  | .initKeyed => Sys2Proof.Machine.execInitKeyed s
  | .initDerive => Sys2Proof.Machine.execInitDerive s
  | .deriveMaterial => Sys2Proof.Machine.execDeriveMaterial s
  | .reset => Sys2Proof.Machine.execReset s
  | .update len => Sys2Proof.Machine.execUpdate len s
  | .finalize len => Sys2Proof.Machine.execFinalize len s
  | .compress len flg => Sys2Proof.Machine.execCompress len flg s
  | .mineHash => Sys2Proof.Machine.execMineHash s
  | .mineCheck => Sys2Proof.Machine.execMineCheck s
  | .mineTry => Sys2Proof.Machine.execMineTry s

end Sys2Proof.Machine
end

