-- ==== Sys2Proof/Machine/Cycle.lean ====
section
/-! DEFINITION. One step of the machine: a command whose time has come completes as one atomic step
(70_reset_and_hazards.md R286); otherwise a host cycle passes. -/

namespace Sys2Proof.Machine

/-- Run a command word (R286): decode it, then its meaning; a word that does not decode raises its error
and has no other effect (30_encoding.md R94, R96). -/
def runWord (w : Word) (s : State) : Result :=
  match decode w with
  | .ok i => exec i s
  | .error e => .next (s.raise (Err.ofDecode e))

/-- The step: the accepted command completes once its cycles have passed (R283, R286); until then, and
while no command is in progress, the host is served (R61, R284, R285). -/
def cycle (s : State) : Result :=
  match s.running with
  | some ⟨w, 0⟩ => runWord w s
  | _ => hostCycle s.tick

end Sys2Proof.Machine
end

