-- ==== Sys2Proof/Machine/Step.lean ====
section
/-! DEFINITION. The machine's step, and how a test places a command word where the next step runs it. -/

namespace Sys2Proof.Machine

/-- One step of B3C and its host. -/
def step (s : State) : Host.Outcome State Fault Refusal := cycle s

/-- `s` with the command word `w` accepted and its cycles passed, so that the very next step runs it. B3C
fetches no instructions (R50): a command word comes from the data of a CMD write (R74), and this stands
for that write (assumption log 9). Bits above `nbits` are 0. -/
def State.withFetchWord (s : State) (nbits w : Nat) : State :=
  { s with running := some ⟨BitVec.ofNat 32 (w % 2 ^ nbits), 0⟩ }

end Sys2Proof.Machine
end

