-- ==== Sys2Proof/Machine/HostProgram.lean ====
section
/-! DEFINITION. Host programs (30_encoding.md R98 to R110): the host statements and the expansions of the
pseudo-instructions, as lists for the `host` field. What a read yields is what the bus answers, one
answer a read. -/

namespace Sys2Proof.Machine

/-- `WR <reg>, <value>` (R99). -/
def wr (r : RegName) (v : Word) : HostStmt := .write (Config.base + r.offset) .w32 v

/-- `RD <reg>` (R99). -/
def rd (r : RegName) : HostStmt := .read (Config.base + r.offset) .w32

/-- A line holding only a command: `WR CMD, <encoding>` followed by `WAIT` (R99). -/
def issue (i : Instr) : List HostStmt := [wr .cmd (encode i), .wait]

/-- `WR NAMEi, LE32(b, 4i)` for each `i` below `n`: the register array filled from a byte string. -/
def wrBytes {k : Nat} (reg : Fin k → RegName) (b : List Byte) : List HostStmt :=
  (List.finRange k).map fun i => wr (reg i) (le32 b (4 * i.val))

/-- `LOAD_DIN <b>` for |b| ≤ 64 (R101): only the words that hold a byte of `b` are written. -/
def loadDin (b : List Byte) : List HostStmt :=
  (wrBytes .din b).take ((b.length + 3) / 4)

/-- The pieces of HASH_BYTES (R102): 64 bytes each, the last one shorter. `fuel` bounds the recursion;
the input's length is enough. -/
def pieces : Nat → List Byte → List (List Byte)
  | 0, _ => []
  | fuel + 1, b => if b = [] then [] else b.take 64 :: pieces fuel (b.drop 64)

/-- One piece of HASH_BYTES: `LOAD_DIN`, then `UPDATE` of its length (R102). -/
def hashPiece (b : List Byte) : List HostStmt :=
  loadDin b ++ issue (.update (BitVec.ofNat 8 b.length))

/-- `HASH_BYTES <b>` (R102). -/
def hashBytes (b : List Byte) : List HostStmt := (pieces b.length b).flatMap hashPiece

/-- `LOAD_KEY <k>` for a 32-byte key (R103). -/
def loadKey (k : List Byte) : List HostStmt := wrBytes .key k

/-- `LOAD_CCV <w0..w7>` (R103). -/
def loadCcv (w : Vector Word 8) : List HostStmt :=
  (List.finRange 8).map fun i => wr (.ccv i) w[i]

/-- `SET_SEEK <s>` (R103). -/
def setSeek (s : Word64) : List HostStmt :=
  [wr .seekLo (s.extractLsb' 0 32), wr .seekHi (s.extractLsb' 32 32)]

/-- `SET_CTR <c>` (R103). -/
def setCtr (c : Word64) : List HostStmt :=
  [wr .ctrLo (c.extractLsb' 0 32), wr .ctrHi (c.extractLsb' 32 32)]

/-- `LOAD_HDR <h>` for a 180-byte header (R104). -/
def loadHdr (h : List Byte) : List HostStmt := wrBytes .hdr h

/-- `LOAD_TARGET <t>` for a 32-byte target (R104). -/
def loadTarget (t : List Byte) : List HostStmt := wrBytes .target t

/-- `LOAD_MHASH <t>` for a 32-byte hash (R104). -/
def loadMhash (t : List Byte) : List HostStmt := wrBytes .mhash t

/-- `READ_OUT <n>` for n ≤ 64 (R105). -/
def readOut (n : Nat) : List HostStmt :=
  ((List.finRange 16).map fun i => rd (.dout i)).take ((n + 3) / 4)

/-- `READ_MHASH` (R105). -/
def readMhash : List HostStmt := (List.finRange 8).map fun i => rd (.mhash i)

/-- What READ_OUT n and READ_MHASH (n = 32) yield from the words read: the first `n` bytes, in lane
order (R105). -/
def yields (n : Nat) (words : List Word) : List Byte := (words.flatMap leBytes).take n

/-- The ERR field of STATUS (10_state.md R24), the mask XOF_READ stops on (R106). -/
def errMask : Word := 0x000000F0

/-- The CHECK bit of STATUS (R24), the mask the nonce search stops on (R237). -/
def checkMask : Word := 0x00000100

/-- `XOF_READ <s>, <n>` (R106): blocks of at most 64 bytes, stopping at the first FINALIZE whose ERR is
not 0. A position past 2^64 does not fit SEEK; SET_SEEK takes its low 64 bits. `fuel` bounds the
recursion; `n` is enough. -/
def xofRead : Nat → Nat → Nat → List HostStmt
  | 0, _, _ => []
  | fuel + 1, s, n =>
    if n = 0 then []
    else
      let rest := readOut (min 64 n) ++ xofRead fuel (s + 64) (n - 64)
      setSeek (BitVec.ofNat 64 s) ++ issue (.finalize (BitVec.ofNat 8 (min 64 n)))
        ++ [.skipIf errMask rest.length] ++ rest

/-- `INIT_DERIVE_KEY <c>` (R107). -/
def initDeriveKey (c : List Byte) : List HostStmt :=
  issue .initDerive ++ hashBytes c ++ issue .deriveMaterial

/-- `HASH <b>` (R108). -/
def hashProgram (b : List Byte) : List HostStmt :=
  issue .init ++ hashBytes b ++ xofRead 32 0 32

/-- `CALCULATE <h>, <nonce>` (R109). -/
def calculate (h : List Byte) (nonce : Word) : List HostStmt :=
  loadHdr h ++ [wr .nonce nonce] ++ issue .mineHash ++ readMhash

/-- `CHECK_DIFFICULTY <x>, <t>` (R109); it yields STATUS bit 8. -/
def checkDifficulty (x t : List Byte) : List HostStmt :=
  loadMhash x ++ loadTarget t ++ issue .mineCheck ++ [rd .status]

/-- The nonce search (R237): the host tries each nonce in turn and stops at the first that meets the
target. B3C itself never changes NONCE. -/
def nonceSearch : List Word → List HostStmt
  | [] => []
  | n :: rest =>
    let later := nonceSearch rest
    [wr .nonce n] ++ issue .mineTry ++ [.skipIf checkMask later.length] ++ later

end Sys2Proof.Machine
end

