-- ==== Sys2Proof/Safety.lean ====
section
/-! DEFINITION. What the claims call a legal state: the invariants the spec says hold between commands
(10_state.md R43, R44, R45, R47, R48; 42_tree_finalize.md R173, R175; 43_session.md R200, R212). -/

namespace Sys2Proof.Machine

/-- The ChunkState invariants (R47) and the bound on the chunk counter (R173, R212). -/
abbrev Chunk.Legal (c : Chunk) : Prop :=
  c.buf.length ≤ blockLen ∧ c.blocks ≤ 15 ∧ (1 ≤ c.blocks → 1 ≤ c.buf.length)
    ∧ c.counter.toNat < 2 ^ 55

/-- The CV-stack invariants (R45, R48, R175), and the chunk's flags are the session's (R44). -/
abbrev Hasher.Legal (m : Hasher) : Prop :=
  m.chunk.Legal ∧ m.stack.length = popcount m.chunk.counter.toNat ∧ m.stack.length ≤ stackCap
    ∧ (m.stack ≠ [] → 1 ≤ m.chunk.len) ∧ m.chunk.flags = m.flags

/-- The mode fixes the mode flags, and in the modes DEFAULT and DERIVE_CTX the key (R43, R200). -/
abbrev ModeLegal (mode : Mode) (m : Hasher) : Prop :=
  m.flags = mode.flags ∧ (mode = .default ∨ mode = .deriveCtx → m.key = iv)

/-- The invariant of the machine: a legal session, in step with the mode. -/
abbrev State.Inv (s : State) : Prop := s.session.Legal ∧ ModeLegal s.mode s.session

/-! ### What a command leaves alone -/

/-- The operand registers, which no command writes (R26 to R29, R33, R34, R37, R38; 92_eei_decisions.md
D35). -/
abbrev State.SameOperands (s t : State) : Prop :=
  t.seekLo = s.seekLo ∧ t.seekHi = s.seekHi ∧ t.ctrLo = s.ctrLo ∧ t.ctrHi = s.ctrHi ∧ t.key = s.key
    ∧ t.ccv = s.ccv ∧ t.nonce = s.nonce ∧ t.din = s.din ∧ t.target = s.target ∧ t.hdr = s.hdr

/-- The session state and its mode (R41 to R45). -/
abbrev State.SameSession (s t : State) : Prop := t.mode = s.mode ∧ t.session = s.session

/-- The host's own side: its remaining statements, the latest answer and the freshness counter. -/
abbrev State.SameHost (s t : State) : Prop :=
  t.host = s.host ∧ t.answer = s.answer ∧ t.free = s.free

/-- A command that completed: ERR is OK and BUSY is 0 (R250, R283). -/
abbrev State.Completed (t : State) : Prop := t.err = .ok ∧ t.running = none

/-- `s` after a command that failed with code `e`: nothing but ERR is written, and BUSY is 0 (R252). -/
abbrev State.failed (s : State) (e : Err) : State := { s with err := e, running := none }

/-! ### Independent readings of the spec's words, for the claims -/

/-- Byte `j` of a word, `j` from 0, bits `8j+7 : 8j` (R40). -/
def wordByte (w : Word) (j : Nat) : Byte := (w >>> (8 * j)).setWidth 8

/-- Byte `k` of the buffer view of a register array (R40). -/
def arrayByte {n : Nat} (v : Vector Word n) (k : Nat) : Byte :=
  wordByte (v.toList.getD (k / 4) 0) (k % 4)

/-- A 64-bit value from its two words (R26, R27). -/
def pairNat (hi lo : Word) : Nat := hi.toNat * 2 ^ 32 + lo.toNat

/-- `BE256(b)` as the sum of 00_scope.md R10. -/
def be256 (b : List Byte) : Nat :=
  ((List.range 32).map fun i => (byteAt b i).toNat * 2 ^ (8 * (31 - i))).sum

/-- A row of the window's map (R22): an offset, its register, and whether the access column says RW. -/
structure WindowRow where
  offset : Nat
  reg    : RegName
  rw     : Bool
  deriving DecidableEq, Repr

/-- The map of the register window, one row a word, transcribed from the table of 10_state.md R22 in its order. -/
def windowMap : List WindowRow :=
  [⟨0x000, .id, false⟩, ⟨0x004, .status, false⟩, ⟨0x008, .cmd, false⟩, ⟨0x00C, .reserved 0, false⟩,
   ⟨0x010, .seekLo, true⟩, ⟨0x014, .seekHi, true⟩, ⟨0x018, .ctrLo, true⟩, ⟨0x01C, .ctrHi, true⟩]
  ++ (List.finRange 8).map (fun i => ⟨0x020 + 4 * i.val, .key i, true⟩)
  ++ (List.finRange 8).map (fun i => ⟨0x040 + 4 * i.val, .ccv i, true⟩)
  ++ [⟨0x060, .infoCtrLo, false⟩, ⟨0x064, .infoCtrHi, false⟩, ⟨0x068, .infoChunk, false⟩,
      ⟨0x06C, .infoStack, false⟩, ⟨0x070, .nonce, true⟩, ⟨0x074, .reserved 1, false⟩,
      ⟨0x078, .reserved 2, false⟩, ⟨0x07C, .reserved 3, false⟩]
  ++ (List.finRange 16).map (fun i => ⟨0x080 + 4 * i.val, .din i, true⟩)
  ++ (List.finRange 16).map (fun i => ⟨0x0C0 + 4 * i.val, .dout i, false⟩)
  ++ (List.finRange 8).map (fun i => ⟨0x100 + 4 * i.val, .mhash i, true⟩)
  ++ (List.finRange 8).map (fun i => ⟨0x120 + 4 * i.val, .target i, true⟩)
  ++ (List.finRange 45).map (fun i => ⟨0x140 + 4 * i.val, .hdr i, true⟩)
  ++ [⟨0x1F4, .reserved 4, false⟩, ⟨0x1F8, .reserved 5, false⟩, ⟨0x1FC, .reserved 6, false⟩]

/-- A fresh session with key `k` and mode flags `f` (R150, R208), field by field. -/
abbrev Hasher.Fresh (m : Hasher) (k : ChainingValue) (f : Byte) : Prop :=
  m.key = k ∧ m.flags = f ∧ m.stack = [] ∧ m.chunk.cv = k ∧ m.chunk.counter = 0 ∧ m.chunk.buf = []
    ∧ m.chunk.blocks = 0 ∧ m.chunk.flags = f

/-- When each error code applies to a command word, the cause column of 60_exceptions.md R251. The code
E_CAPACITY is read as assumption log 10 says. -/
def ErrorApplies (w : Word) (s : State) (e : Err) : Prop :=
  let op := w.toNat % 256
  let len := w.toNat / 256 % 256
  let flg := w.toNat / 65536 % 256
  let rsv := w.toNat / 16777216
  let classN := op ∈ [0x01, 0x02, 0x03, 0x04, 0x05, 0x40, 0x41, 0x42]
  let classL := op ∈ [0x10, 0x20]
  match e with
  | .ok => False
  | .illegalOp =>
    rsv ≠ 0 ∨ (¬ classN ∧ ¬ classL ∧ op ≠ 0x30) ∨ (classN ∧ (len ≠ 0 ∨ flg ≠ 0)) ∨ (classL ∧ flg ≠ 0)
  | .badLen => (classL ∨ op = 0x30) ∧ 64 < len
  | .noSession => op ∈ [0x10, 0x20, 0x05, 0x04] ∧ s.mode = .none
  | .state => (op = 0x04 ∧ s.mode ≠ .deriveCtx) ∨ (op = 0x05 ∧ s.mode = .deriveCtx)
  | .xofRange =>
    op = 0x20 ∧ Config.multiChunkXof = .restricted ∧ s.session.stack ≠ [] ∧ 0 < len
      ∧ 64 < pairNat s.seekHi s.seekLo + len
  | .capacity =>
    op = 0x10 ∧ 0 < len ∧ 1024 < s.session.chunk.len + len ∧ 55 < s.session.stack.length + 1

/-- The mode after a command, the table of 43_session.md R209. -/
def modeAfter (i : Instr) (m : Mode) : Mode :=
  match i, m with
  | .init, _ => .default
  | .initKeyed, _ => .keyed
  | .initDerive, _ => .deriveCtx
  | .deriveMaterial, .deriveCtx => .deriveMat
  | .deriveMaterial, m => m
  | .reset, m => m
  | .update _, m => m
  | .finalize _, m => m
  | .compress _ _, m => m
  | .mineHash, m => m
  | .mineCheck, m => m
  | .mineTry, m => m

/-- The state with other values in `st.key` and `st.chunk.cv`, the two the reset leaves open (R53). -/
def State.withOpen (s : State) (k c : ChainingValue) : State :=
  { s with session := { s.session with key := k, chunk := { s.session.chunk with cv := c } } }

/-- What an UPDATE of `len` bytes absorbs when DIN is `d` (R206). -/
def updateBytes (d : Vector Word 16) (len : Byte) : List Byte :=
  (List.range len.toNat).map (arrayByte d)

/-- A sequence of UPDATE commands, each with the DIN the host has loaded for it, all of which complete:
from `s` it ends in `t` (R182). -/
def Updates : State → List (Vector Word 16 × Byte) → State → Prop
  | s, [], t => t = s
  | s, (d, len) :: rest, t =>
    ∃ u, exec (.update len) { s with din := d } = .next u ∧ u.err = .ok ∧ Updates u rest t

/-! ### The canonical tree (42_tree_finalize.md R176) -/

/-- The largest power of two strictly less than `n`, for n ≥ 2. -/
def leftSize (n : Nat) : Nat := 2 ^ Nat.log2 (n - 1)

/-- The CV of the subtree over the chunk CVs `cs`: one chunk is its own CV; more split as R176 says.
`fuel` bounds the recursion; the number of chunks is enough. -/
def subtreeCv (K : ChainingValue) (F : Byte) : Nat → List ChainingValue → ChainingValue
  | _, [] => Vector.replicate 8 0
  | _, [c] => c
  | 0, c :: _ => c
  | fuel + 1, cs =>
    let k := leftSize cs.length
    nodeCv (parentNode K F (subtreeCv K F fuel (cs.take k)) (subtreeCv K F fuel (cs.drop k)))

/-- The root node over the CVs of two or more chunks (R176). -/
def canonicalRoot (K : ChainingValue) (F : Byte) (cs : List ChainingValue) : Node :=
  let k := leftSize cs.length
  parentNode K F (subtreeCv K F cs.length (cs.take k)) (subtreeCv K F cs.length (cs.drop k))

/-- The CV of chunk `i` of an input (R150, R153, R155). -/
def chunkCv (K : ChainingValue) (F : Byte) (b : List Byte) (i : Nat) : ChainingValue :=
  nodeCv (chunkOutputNode F
    (chunkUpdate F (chunkInit K F (BitVec.ofNat 64 i)) ((b.drop (1024 * i)).take 1024)))

/-- The CVs of all chunks of an input, in order. -/
def chunkCvs (K : ChainingValue) (F : Byte) (b : List Byte) : List ChainingValue :=
  (List.range ((b.length + 1023) / 1024)).map (chunkCv K F b)

end Sys2Proof.Machine
end

