-- ==== Sys2Proof/Certificates/Slice0/Obligations.lean ====
section
/-! DEFINITION. The statements for the provers. Each docstring names the rule of spec/ it formalises. -/

open Sys2Proof Sys2Proof.Machine

/-! ### Encoding -/

/-- One command word of every row of R92, written out from R90 and R98, with what it decodes to, and six of
the illegal words of 60_exceptions.md R253 and 95_test_vectors.md section 6. -/
def Obligations.SpecWordsDecode : Prop :=
  decode 0x00000001 = .ok .init ∧ decode 0x00000002 = .ok .initKeyed
    ∧ decode 0x00000003 = .ok .initDerive ∧ decode 0x00000004 = .ok .deriveMaterial
    ∧ decode 0x00000005 = .ok .reset ∧ decode 0x00000310 = .ok (.update 3)
    ∧ decode 0x00002020 = .ok (.finalize 32) ∧ decode 0x000B4030 = .ok (.compress 64 0x0B)
    ∧ decode 0x00000040 = .ok .mineHash ∧ decode 0x00000041 = .ok .mineCheck
    ∧ decode 0x00000042 = .ok .mineTry ∧ decode 0x00000000 = .error .illegalOp
    ∧ decode 0x00000101 = .error .illegalOp ∧ decode 0x00014110 = .error .illegalOp
    ∧ decode 0x00004110 = .error .badLen ∧ decode 0x00004130 = .error .badLen
    ∧ decode 0xFF004030 = .error .illegalOp

/-- Decoding an encoded well-formed command gives it back, with every operand at every value (R90, R92). -/
def Obligations.DecodeOfEncode : Prop :=
  ∀ i : Instr, i.WellFormed → decode (encode i) = .ok i

/-- Every word that decodes is the encoding of the well-formed command it decodes to: no two words mean
one command (R92, R97, R98). -/
def Obligations.EncodeOfDecode : Prop :=
  ∀ (w : Word) (i : Instr), decode w = .ok i → i.WellFormed ∧ encode i = w

/-- R94: decoding is its five checks in order, on the fields as numbers; and an illegal word has no effect
but STATUS.ERR. -/
def Obligations.DecodeChecksInOrder : Prop :=
  ∀ w : Word,
    (let op := w.toNat % 256
     let len := w.toNat / 256 % 256
     let flg := w.toNat / 65536 % 256
     let rsv := w.toNat / 16777216
     let classN := [0x01, 0x02, 0x03, 0x04, 0x05, 0x40, 0x41, 0x42]
     let classL := [0x10, 0x20]
     let classLF := [0x30]
     decode w =
       if rsv ≠ 0 then .error .illegalOp
       else if op ∉ classN ++ classL ++ classLF then .error .illegalOp
       else if op ∈ classN ∧ (len ≠ 0 ∨ flg ≠ 0) then .error .illegalOp
       else if op ∈ classL ∧ flg ≠ 0 then .error .illegalOp
       else if op ∈ classL ++ classLF ∧ 64 < len then .error .badLen
       else .ok (
         if op = 0x01 then .init else if op = 0x02 then .initKeyed else if op = 0x03 then .initDerive
         else if op = 0x04 then .deriveMaterial else if op = 0x05 then .reset
         else if op = 0x10 then .update (BitVec.ofNat 8 len)
         else if op = 0x20 then .finalize (BitVec.ofNat 8 len)
         else if op = 0x30 then .compress (BitVec.ofNat 8 len) (BitVec.ofNat 8 flg)
         else if op = 0x40 then .mineHash else if op = 0x41 then .mineCheck else .mineTry))
    ∧ ∀ (s : State) (e : DecodeError), s.running = some ⟨w, 0⟩ → decode w = .error e →
        step s = .next (s.failed (match e with | .illegalOp => .illegalOp | .badLen => .badLen))

/-- A word selects at most one row of the opcode map (R92). -/
def Obligations.OpcodeRowsDisjoint : Prop :=
  ∀ (w : Word), ∀ r ∈ opTable, ∀ r' ∈ opTable,
    w &&& r.mask = r.pattern → w &&& r'.mask = r'.pattern → r.mnemonic = r'.mnemonic

/-- E_ILLEGAL_OP is raised by the words no row selects, and E_BAD_LEN by those a row with a length operand
selects whose LEN is above 64 (R92, R94, R95, R96). -/
def Obligations.IllegalWordsSelectNoRow : Prop :=
  ∀ w : Word,
    (decode w = .error .illegalOp ↔ ∀ r ∈ opTable, w &&& r.mask ≠ r.pattern)
    ∧ (decode w = .error .badLen ↔
        ∃ r ∈ opTable, w &&& r.mask = r.pattern ∧ r.cls ≠ .n ∧ 64 < w.toNat / 256 % 256)

/-! ### The step and the error model -/

/-- When the accepted command word decodes to `i` and its cycles have passed, the step is exec of `i` at
that state (R286). The step adds nothing around it: there is no program counter to move (R50). -/
def Obligations.StepRunsDecodedCommand : Prop :=
  ∀ (s : State) (w : Word) (i : Instr),
    s.running = some ⟨w, 0⟩ → decode w = .ok i → step s = exec i s

/-- R252: a raise writes its code to STATUS.ERR and nothing else: every command word ends with BUSY = 0,
and one that ends with an error leaves every other part of the state as it was. An error is not sticky:
what a command word does is the same whatever ERR was before it. -/
def Obligations.FailingCommandOnlyReports : Prop :=
  ∀ (w : Word) (s : State),
    (∃ t, runWord w s = .next t ∧ t.running = none ∧ (t.err ≠ .ok → t = s.failed t.err))
    ∧ ∀ e : Err, runWord w { s with err := e } = runWord w s

/-- R253: of the codes whose cause applies (R251), the lowest is reported; with none, the command
completes. E_CAPACITY's cause is read as assumption log 10 says. Then the rule's four examples. -/
def Obligations.LowestErrorCodeReported : Prop :=
  (∀ (w : Word) (s : State), ∃ t, runWord w s = .next t
      ∧ (t.err = .ok → ∀ e, ¬ ErrorApplies w s e)
      ∧ (t.err ≠ .ok → ErrorApplies w s t.err ∧ ∀ e, ErrorApplies w s e → t.err.code ≤ e.code))
  ∧ (∀ s : State, runWord 0x00014110 s = .next (s.failed .illegalOp))
  ∧ (∀ s : State, s.mode = .none → runWord 0x00004110 s = .next (s.failed .badLen))
  ∧ (∀ s : State, s.mode = .none → runWord 0x00000010 s = .next (s.failed .noSession))
  ∧ (∀ s : State, s.mode ≠ .none → s.session.stack ≠ [] → pairNat s.seekHi s.seekLo = 100 →
      ∃ t, runWord 0x00000020 s = .next t ∧ t.err = .ok)

/-- The commands UPDATE, FINALIZE and COMPRESS with a length above 64, given to exec directly, raise E_BAD_LEN in
every state. No word decodes to such a command (R94, R95): that its meaning answers what the command word
would is the model's choice (assumption log 15). -/
def Obligations.LongLengthsRaiseBadLen : Prop :=
  ∀ (s : State) (len flg : Byte), 64 < len.toNat →
    exec (.update len) s = .next (s.failed .badLen)
    ∧ exec (.finalize len) s = .next (s.failed .badLen)
    ∧ exec (.compress len flg) s = .next (s.failed .badLen)

/-! ### Session commands -/

/-- R208: `session_start` makes a fresh session and its mode and writes nothing else; the three INIT commands
and DERIVE_MATERIAL in mode DERIVE_CTX are it, with the arguments of R201 to R204, and complete. -/
def Obligations.InitCommandsStartSessions : Prop :=
  ∀ s : State,
    (∀ (k : ChainingValue) (f : Byte) (m : Mode),
      let t := s.sessionStart k f m
      t.session.Fresh k f ∧ t.mode = m ∧ s.SameOperands t ∧ t.dout = s.dout ∧ t.mhash = s.mhash
        ∧ t.err = s.err ∧ t.chk = s.chk ∧ t.wbusy = s.wbusy ∧ t.running = s.running ∧ s.SameHost t)
    ∧ (s.mode = .deriveCtx →
        ∃ ck, exec .deriveMaterial s = .next (s.sessionStart ck 0x40 .deriveMat).complete) ∧
    let starts (o : Host.Outcome State Fault Refusal) (k : ChainingValue) (f : Byte) (m : Mode) : Prop :=
      ∃ t, o = .next t ∧ t.Completed ∧ t.session.Fresh k f ∧ t.mode = m
        ∧ s.SameOperands t ∧ t.dout = s.dout ∧ t.mhash = s.mhash ∧ t.chk = s.chk ∧ t.wbusy = s.wbusy
        ∧ s.SameHost t
    let IV : ChainingValue := #v[0x6A09E667, 0xBB67AE85, 0x3C6EF372, 0xA54FF53A, 0x510E527F, 0x9B05688C,
      0x1F83D9AB, 0x5BE0CD19]
    starts (exec .init s) IV 0x00 .default
      ∧ starts (exec .initKeyed s) s.key 0x10 .keyed
      ∧ starts (exec .initDerive s) IV 0x20 .deriveCtx

/-- R204: in mode DERIVE_CTX, DERIVE_MATERIAL starts the material phase under the context key, the eight
little-endian words of `finalize_bytes(0, 32)`, and writes nothing else. -/
def Obligations.DeriveMaterialTakesContextKey : Prop :=
  ∀ s : State, s.mode = .deriveCtx →
    ∃ cb t, finalizeBytes Config.multiChunkXof s.session 0 32 = .ok cb ∧ cb.length = 32
      ∧ exec .deriveMaterial s = .next t ∧ t.Completed ∧ t.mode = .deriveMat
      ∧ t.session.Fresh t.session.key 0x40
      ∧ (∀ k < 32, arrayByte t.session.key k = byteAt cb k)
      ∧ s.SameOperands t ∧ t.dout = s.dout ∧ t.mhash = s.mhash ∧ t.chk = s.chk ∧ t.wbusy = s.wbusy
      ∧ s.SameHost t

/-- R205: in modes DEFAULT, KEYED and DERIVE_MAT, RESET starts the chunk and the stack over under the same
key, masks the flags, and keeps the mode and everything else; in a state whose flags are the mode's,
the flags do not change. -/
def Obligations.ResetKeepsKeyAndMode : Prop :=
  ∀ s : State, s.mode ≠ .none → s.mode ≠ .deriveCtx →
    ∃ t, exec .reset s = .next t ∧ t.Completed ∧ t.mode = s.mode
      ∧ t.session.Fresh s.session.key (s.session.flags &&& (0x10 ||| 0x40))
      ∧ (s.session.flags = s.mode.flags → t.session.flags = s.session.flags)
      ∧ s.SameOperands t ∧ t.dout = s.dout ∧ t.mhash = s.mhash ∧ t.chk = s.chk ∧ t.wbusy = s.wbusy
      ∧ s.SameHost t

/-- R205's corner case: a RESET right after INIT, INIT_KEYED, or a DERIVE_MATERIAL that completed leaves
the state as it was. -/
def Obligations.ResetAfterStartChangesNothing : Prop :=
  ∀ s t : State,
    (exec .init s = .next t ∨ exec .initKeyed s = .next t ∨ (exec .deriveMaterial s = .next t ∧ t.err = .ok)) →
    exec .reset t = .next t

/-- R200's error columns: the session commands in mode NONE, DERIVE_MATERIAL outside DERIVE_CTX, and RESET
in DERIVE_CTX. -/
def Obligations.SessionCommandsNeedTheirMode : Prop :=
  (∀ s : State, s.mode = .none →
    exec .deriveMaterial s = .next (s.failed .noSession) ∧ exec .reset s = .next (s.failed .noSession)
    ∧ ∀ len : Byte, len.toNat ≤ 64 →
        exec (.update len) s = .next (s.failed .noSession)
        ∧ exec (.finalize len) s = .next (s.failed .noSession))
  ∧ (∀ s : State, s.mode ≠ .none → s.mode ≠ .deriveCtx →
      exec .deriveMaterial s = .next (s.failed .state))
  ∧ (∀ s : State, s.mode = .deriveCtx → exec .reset s = .next (s.failed .state))

/-- R206: UPDATE absorbs the first `len` bytes of DIN, byte k being byte k of the buffer view, and writes
only the session. Without room it raises E_CAPACITY; when that is follows assumption log 10. -/
def Obligations.UpdateAbsorbsDin : Prop :=
  ∀ (s : State) (len : Byte), len.toNat ≤ 64 → s.mode ≠ .none →
    ((1024 < s.session.chunk.len + len.toNat → s.session.stack.length < 55) →
      ∃ b t, b.length = len.toNat ∧ (∀ k < len.toNat, byteAt b k = arrayByte s.din k)
        ∧ exec (.update len) s = .next t ∧ t.Completed ∧ t.session = hasherUpdate s.session b
        ∧ t.mode = s.mode ∧ s.SameOperands t ∧ t.dout = s.dout ∧ t.mhash = s.mhash ∧ t.chk = s.chk
        ∧ t.wbusy = s.wbusy ∧ s.SameHost t)
    ∧ (0 < len.toNat → 1024 < s.session.chunk.len + len.toNat → 55 ≤ s.session.stack.length →
        exec (.update len) s = .next (s.failed .capacity))

/-- R206's corner case: UPDATE 0 checks the mode, writes ERR 0, and changes nothing else. -/
def Obligations.UpdateZeroChangesNothing : Prop :=
  ∀ s : State, s.mode ≠ .none → exec (.update 0) s = .next (s.failed .ok)

/-- R151, R174, R206: a completed UPDATE makes the session's input, 1024 bytes a counted chunk and the
active chunk's length, `len` bytes longer, and pushes at most one chunk, only past a full one. When an
UPDATE completes at the capacity follows assumption log 10. -/
def Obligations.UpdateCountsItsBytes : Prop :=
  ∀ (s t : State) (len : Byte), s.Inv → exec (.update len) s = .next t → t.err = .ok →
    1024 * t.session.chunk.counter.toNat + t.session.chunk.len
        = 1024 * s.session.chunk.counter.toNat + s.session.chunk.len + len.toNat
    ∧ (t.session.chunk.counter = s.session.chunk.counter
        ∨ (t.session.chunk.counter.toNat = s.session.chunk.counter.toNat + 1
            ∧ 1024 < s.session.chunk.len + len.toNat))

/-- R182: what a session holds depends on the bytes absorbed, not on how they are split: for every split of
an input, hence for the digest, and for two sequences of UPDATE commands whose data concatenate to the
same string. -/
def Obligations.SplitIndependence : Prop :=
  (∀ m : Hasher, m.Legal → ∀ x y : List Byte, hasherUpdate (hasherUpdate m x) y = hasherUpdate m (x ++ y))
  ∧ (∀ x y : List Byte,
      digest32 (hasherUpdate (hasherUpdate (freshHasher iv 0x00) x) y) = oneshotHash (x ++ y))
  ∧ ∀ (s t t' : State) (us us' : List (Vector Word 16 × Byte)), s.Inv →
      Updates s us t → Updates s us' t' →
      (us.flatMap fun u => updateBytes u.1 u.2) = (us'.flatMap fun u => updateBytes u.1 u.2) →
      t.session = t'.session

/-- R207: FINALIZE writes the output bytes from SEEK on into the first `len` bytes of DOUT; the others, the
session and everything else keep their value. Where `finalize_bytes` raises, so does the command. -/
def Obligations.FinalizeWritesOutput : Prop :=
  ∀ (s : State) (len : Byte), len.toNat ≤ 64 → s.mode ≠ .none →
    (∀ out, finalizeBytes Config.multiChunkXof s.session (pairNat s.seekHi s.seekLo) len.toNat = .ok out →
      ∃ t, exec (.finalize len) s = .next t ∧ t.Completed
        ∧ (∀ k < 64, arrayByte t.dout k = if k < len.toNat then byteAt out k else arrayByte s.dout k)
        ∧ s.SameSession t ∧ s.SameOperands t ∧ t.mhash = s.mhash ∧ t.chk = s.chk ∧ t.wbusy = s.wbusy
        ∧ s.SameHost t)
    ∧ (∀ e, finalizeBytes Config.multiChunkXof s.session (pairNat s.seekHi s.seekLo) len.toNat = .error e →
        exec (.finalize len) s = .next (s.failed e))

/-- FINALIZE completes for every length whenever the request lies in the first root block, whatever
MULTI_CHUNK_XOF is, and for a single-chunk session at every seek (R179, R207): DOUT's first `len` bytes
take the root node's stream from SEEK on, and nothing else changes. -/
def Obligations.FinalizeCompletes : Prop :=
  ∀ (s : State) (len : Byte), len.toNat ≤ 64 → s.mode ≠ .none →
    (s.session.stack = [] ∨ len.toNat = 0 ∨ pairNat s.seekHi s.seekLo + len.toNat ≤ 64) →
    ∃ t, exec (.finalize len) s = .next t ∧ t.Completed
      ∧ (∀ k < 64, arrayByte t.dout k =
          if k < len.toNat then streamByte (rootNode s.session) (pairNat s.seekHi s.seekLo + k)
          else arrayByte s.dout k)
      ∧ s.SameSession t ∧ s.SameOperands t ∧ t.mhash = s.mhash ∧ t.chk = s.chk ∧ t.wbusy = s.wbusy
      ∧ s.SameHost t

/-- R179: the range rule of MULTI_CHUNK_XOF. `restricted` raises exactly on a multi-chunk request past byte
64, and what it returns are bytes of the root block at counter 0; under `standard` R178 applies to every
position; where `restricted` returns, both settings return the same. FINALIZE raises E_XOF_RANGE exactly
then, under `restricted` only. -/
def Obligations.MultiChunkRangeRule : Prop :=
  (∀ (m : Hasher) (seek len : Nat),
    (finalizeBytes .restricted m seek len = .error .xofRange ↔
      m.stack ≠ [] ∧ 0 < len ∧ 64 < seek + len)
    ∧ finalizeBytes .standard m seek len = .ok (rootBytes (rootNode m) seek len)
    ∧ ∀ out, finalizeBytes .restricted m seek len = .ok out →
        finalizeBytes .standard m seek len = .ok out
        ∧ (m.stack ≠ [] → ∀ j < len, byteAt out j = byteAt (outputBlock (rootNode m) 0) (seek + j)))
  ∧ ∀ (s : State) (len : Byte), len.toNat ≤ 64 → s.mode ≠ .none →
      (exec (.finalize len) s = .next (s.failed .xofRange) ↔
        Config.multiChunkXof = .restricted ∧ s.session.stack ≠ [] ∧ 0 < len.toNat
          ∧ 64 < pairNat s.seekHi s.seekLo + len.toNat)

/-- R180: FINALIZE may be repeated: the same command again changes nothing, in every state, whether it
completed or raised. -/
def Obligations.FinalizeIsRepeatable : Prop :=
  ∀ (s t : State) (len : Byte), exec (.finalize len) s = .next t → exec (.finalize len) t = .next t

/-- R181: output bytes read at position k are those bytes of the output read from position 0; under
`standard` both reads return, under `restricted` wherever they do. -/
def Obligations.SeekConsistency : Prop :=
  ∀ (m : Hasher) (k len : Nat),
    (∃ a b, finalizeBytes .standard m k len = .ok a ∧ finalizeBytes .standard m 0 (k + len) = .ok b
      ∧ a = (b.drop k).take len)
    ∧ ∀ a b, finalizeBytes .restricted m k len = .ok a → finalizeBytes .restricted m 0 (k + len) = .ok b →
        a = (b.drop k).take len

/-- R178: byte p of a node's output stream is byte `p mod 64` of the wide compression with ROOT added and
counter `p div 64`. -/
def Obligations.OutputStreamBytes : Prop :=
  ∀ (n : Node) (seek len : Nat), (rootBytes n seek len).length = len
    ∧ ∀ j < len,
        let p := seek + j
        byteAt (rootBytes n seek len) j
          = arrayByte (compressWide n.cv n.block n.blockLen (BitVec.ofNat 64 (p / 64)) (n.flags ||| 0x08))
              (p % 64)

/-! ### Compression -/

/-- R132: COMPRESS writes the wide output of CCV, the 64 bytes of DIN as they stand, LEN, CTR and FLG to
DOUT, in every mode, and writes nothing else. -/
def Obligations.CompressWritesWideOutput : Prop :=
  ∀ (s : State) (len flg : Byte), len.toNat ≤ 64 →
    ∃ block t, block.length = 64 ∧ (∀ k < 64, byteAt block k = arrayByte s.din k)
      ∧ exec (.compress len flg) s = .next t ∧ t.Completed
      ∧ t.dout = compressWide s.ccv block len.toNat (BitVec.ofNat 64 (pairNat s.ctrHi s.ctrLo)) flg
      ∧ s.SameSession t ∧ s.SameOperands t ∧ t.mhash = s.mhash ∧ t.chk = s.chk ∧ t.wbusy = s.wbusy
      ∧ s.SameHost t

/-- R125: G on four different state words, as its eight equations, every other word kept. R126: a round is G on
the four columns, then the four diagonals, with the message words in the order of the schedule row. R124:
message word i is bytes 4i to 4i + 3 of the block, least significant first. R127: the sixteen words the
rounds start from, and the seven rounds in order with the schedule rows of R123, row r + 1 being row r
permuted by PERM. -/
def Obligations.CompressionStateAndRounds : Prop :=
  (∀ (v : Block16) (a b c d : Fin 16) (mx my : Word), [a, b, c, d].Nodup →
    let a1 := v[a] + v[b] + mx
    let d1 := (v[d] ^^^ a1).rotateRight 16
    let c1 := v[c] + d1
    let b1 := (v[b] ^^^ c1).rotateRight 12
    let a2 := a1 + b1 + my
    let d2 := (d1 ^^^ a2).rotateRight 8
    let c2 := c1 + d2
    let b2 := (b1 ^^^ c2).rotateRight 7
    let w := quarterRound v a b c d mx my
    w[a] = a2 ∧ w[b] = b2 ∧ w[c] = c2 ∧ w[d] = d2 ∧ ∀ i : Fin 16, i ∉ [a, b, c, d] → w[i] = v[i])
  ∧ (∀ (v m : Block16) (row : Vector (Fin 16) 16),
    let steps : List (Fin 16 × Fin 16 × Fin 16 × Fin 16) :=
      [(0, 4, 8, 12), (1, 5, 9, 13), (2, 6, 10, 14), (3, 7, 11, 15),
       (0, 5, 10, 15), (1, 6, 11, 12), (2, 7, 8, 13), (3, 4, 9, 14)]
    let words : List (Word × Word) :=
      [(m[row[0]], m[row[1]]), (m[row[2]], m[row[3]]), (m[row[4]], m[row[5]]), (m[row[6]], m[row[7]]),
       (m[row[8]], m[row[9]]), (m[row[10]], m[row[11]]), (m[row[12]], m[row[13]]), (m[row[14]], m[row[15]])]
    roundStep v m row
      = (steps.zip words).foldl (fun v g => quarterRound v g.1.1 g.1.2.1 g.1.2.2.1 g.1.2.2.2 g.2.1 g.2.2) v)
  ∧ (∀ (block : List Byte) (i : Fin 16), ∀ j < 4,
    wordByte (messageWords block)[i] j = byteAt block (4 * i.val + j))
  ∧ (∀ (cv : ChainingValue) (n : Nat) (ctr : Word64) (f : Byte),
    (initBlock cv n ctr f).toList
      = cv.toList ++ [0x6A09E667, 0xBB67AE85, 0x3C6EF372, 0xA54FF53A, BitVec.ofNat 32 (ctr.toNat % 2 ^ 32),
          BitVec.ofNat 32 (ctr.toNat / 2 ^ 32), BitVec.ofNat 32 n, BitVec.ofNat 32 f.toNat])
  ∧ ∃ rows : List (Vector (Fin 16) 16), rows.length = 7
      ∧ (∀ r0, rows[0]? = some r0 → ∀ j : Fin 16, r0[j] = j)
      ∧ (∀ r row row', rows[r]? = some row → rows[r + 1]? = some row' → ∀ j : Fin 16,
          let perm : Vector (Fin 16) 16 := #v[2, 6, 3, 10, 7, 0, 4, 13, 1, 11, 12, 5, 9, 14, 15, 8]
          row'[j] = row[perm[j]])
      ∧ ∀ v m : Block16, sevenRounds v m = rows.foldl (fun v s => roundStep v m s) v

/-- R128 and R129: the wide output's two halves, its 64-byte form, and the chaining value as its first
eight words. -/
def Obligations.WideAndChainingOutput : Prop :=
  ∀ (cv : ChainingValue) (block : List Byte) (n : Nat) (ctr : Word64) (f : Byte),
    let v := sevenRounds (initBlock cv n ctr f) (messageWords block)
    let w := compressWide cv block n ctr f
    (∀ i : Fin 8, w[i.val] = v[i.val] ^^^ v[i.val + 8] ∧ w[i.val + 8] = v[i.val + 8] ^^^ cv[i.val])
    ∧ (bufBytes w).length = 64 ∧ (∀ k < 64, byteAt (bufBytes w) k = wordByte (w.toList.getD (k / 4) 0) (k % 4))
    ∧ ∀ i : Fin 8, (compressCv cv block n ctr f)[i.val] = w[i.val]

/-- R125, R126, R130: G uses only modular addition, xor and rotation, so the seven rounds lose nothing: two
different states stay different, whatever the message. -/
def Obligations.RoundsLoseNothing : Prop :=
  ∀ m v v' : Block16, sevenRounds v m = sevenRounds v' m → v = v'

/-! ### Chunks and the tree -/

/-- R157: a chunk of n bytes, 1 to 1024, in k = ceil(n/64) blocks. The first k - 1 blocks are compressed in
order, block_len 64, only block 0 with CHUNK_START; the last stays buffered, and its node has block_len
n - 64(k-1) and CHUNK_END, with CHUNK_START too when k = 1. -/
def Obligations.ChunkBlockFlags : Prop :=
  ∀ (K : ChainingValue) (F : Byte) (ctr : Word64) (b : List Byte),
    1 ≤ b.length → b.length ≤ 1024 →
    let k := (b.length + 63) / 64
    let c := chunkUpdate F (chunkInit K F ctr) b
    let n := chunkOutputNode F c
    c.blocks = k - 1 ∧ c.buf = b.drop (64 * (k - 1)) ∧ c.counter = ctr
      ∧ c.cv = (List.range (k - 1)).foldl (fun cv i =>
          compressCv cv ((b.drop (64 * i)).take 64) 64 ctr (F ||| if i = 0 then 0x01 else 0x00)) K
      ∧ n.blockLen = b.length - 64 * (k - 1)
      ∧ n.flags = F ||| (if k = 1 then 0x01 else 0x00) ||| 0x02
      ∧ n.block = b.drop (64 * (k - 1)) ++ List.replicate (64 - n.blockLen) 0

/-- R156: the output node of an empty chunk. -/
def Obligations.EmptyChunkNode : Prop :=
  ∀ (F : Byte) (c : Chunk), c.len = 0 →
    chunkOutputNode F c = ⟨c.cv, List.replicate 64 0, 0, c.counter, F ||| 0x01 ||| 0x02⟩

/-- R176: the hash of an input of two or more chunks is computed over the canonical tree: the left subtree
holds the largest power of two of chunks strictly less than their number, recursively. Then the rule's
three examples. The parent node of R171: the two CVs as message words, left first, 64 bytes, counter 0,
the session key as CV input, and PARENT beside the mode flags. -/
def Obligations.CanonicalTree : Prop :=
  ∀ (K : ChainingValue) (F : Byte),
    (∀ l r : ChainingValue,
      let n := parentNode K F l r
      n.cv = K ∧ n.block.length = 64 ∧ (messageWords n.block).toList = l.toList ++ r.toList
        ∧ n.blockLen = 64 ∧ n.counter = 0 ∧ n.flags = F ||| 0x04) ∧
    (∀ b : List Byte, 1024 < b.length → b.length ≤ 2 ^ 65 →
      rootNode (hasherUpdate (freshHasher K F) b) = canonicalRoot K F (chunkCvs K F b))
    ∧ ∀ c0 c1 c2 c3 c4 : ChainingValue,
        let parent (l r : ChainingValue) := parentNode K F l r
        canonicalRoot K F [c0, c1] = parent c0 c1
        ∧ canonicalRoot K F [c0, c1, c2] = parent (nodeCv (parent c0 c1)) c2
        ∧ canonicalRoot K F [c0, c1, c2, c3, c4]
            = parent (nodeCv (parent (nodeCv (parent c0 c1)) (nodeCv (parent c2 c3)))) c4

/-! ### Mining -/

/-- R236: the working copy has the nonce's four little-endian bytes at 140 to 143 and HDR's bytes elsewhere,
and no mining command changes HDR. Then the rule's example. -/
def Obligations.NonceInjection : Prop :=
  (∀ s : State, (workHeader s).length = 180
    ∧ (∀ j < 4, byteAt (workHeader s) (140 + j) = wordByte s.nonce j)
    ∧ (∀ k < 180, (k < 140 ∨ 143 < k) → byteAt (workHeader s) k = arrayByte s.hdr k)
    ∧ (∀ i ∈ [Instr.mineHash, .mineCheck, .mineTry], ∃ t, exec i s = .next t ∧ t.hdr = s.hdr))
  ∧ ∀ s : State, s.nonce = 0x01020304 → ((workHeader s).drop 140).take 4 = [0x04, 0x03, 0x02, 0x01]

/-- R231: MINE_HASH writes the one-shot digest of the working header to MHASH, byte by byte, in every mode,
and writes nothing else. -/
def Obligations.MineHashWritesDigest : Prop :=
  ∀ s : State, ∃ t, exec .mineHash s = .next t ∧ t.Completed
    ∧ (oneshotHash (workHeader s)).length = 32
    ∧ (∀ k < 32, arrayByte t.mhash k = byteAt (oneshotHash (workHeader s)) k)
    ∧ s.SameSession t ∧ s.SameOperands t ∧ t.dout = s.dout ∧ t.chk = s.chk ∧ t.wbusy = s.wbusy
    ∧ s.SameHost t

/-- R235: for the 180-byte header the one-shot hash is three compressions. -/
def Obligations.OneShotClosedForm : Prop :=
  ∀ x : List Byte, x.length = 180 →
    let c1 := compressCv iv (x.take 64) 64 0 0x01
    let c2 := compressCv c1 ((x.drop 64).take 64) 64 0 0x00
    let out := compressWide c2 (x.drop 128 ++ List.replicate 12 0) 52 0 (0x02 ||| 0x08)
    oneshotHash x = (bufBytes out).take 32

/-- R232: `meets(h, t)` is 1 exactly when BE256(h) ≤ BE256(t); it is 0 exactly when at the first byte that
differs, from the left, h's is greater. Byte 0 of the two strings is bits 7:0 of MHASH0 and TARGET0, byte
31 bits 31:24 of MHASH7 and TARGET7. -/
def Obligations.MeetsIsBigEndianOrder : Prop :=
  (∀ h t : List Byte, h.length = 32 → t.length = 32 →
    (meets h t = true ↔ be256 h ≤ be256 t)
    ∧ (meets h t = false ↔
        ∃ i < 32, (∀ j < i, byteAt h j = byteAt t j) ∧ byteAt t i < byteAt h i))
  ∧ ∀ v : Vector Word 8, byteAt (bufBytes v) 0 = v[0].extractLsb' 0 8
      ∧ byteAt (bufBytes v) 31 = v[7].extractLsb' 24 8

/-- R233: MINE_CHECK writes CHECK, 1 exactly when MHASH is at most TARGET as big-endian numbers (byte 0 most
significant), in every mode, and writes nothing else. -/
def Obligations.MineCheckComparesBigEndian : Prop :=
  ∀ s : State, ∃ t, exec .mineCheck s = .next t ∧ t.Completed
    ∧ (t.chk = true ↔ be256 ((List.range 32).map (arrayByte s.mhash))
        ≤ be256 ((List.range 32).map (arrayByte s.target)))
    ∧ s.SameSession t ∧ s.SameOperands t ∧ t.dout = s.dout ∧ t.mhash = s.mhash ∧ t.wbusy = s.wbusy
    ∧ s.SameHost t

/-- R234: MINE_TRY is MINE_HASH followed by MINE_CHECK: it completes, with MHASH of the one and CHECK of the
other run on the new MHASH, and writes nothing else. -/
def Obligations.MineTryIsHashThenCheck : Prop :=
  ∀ s : State, ∃ t u, exec .mineHash s = .next t ∧ exec .mineCheck t = .next u ∧ exec .mineTry s = .next u
    ∧ u.Completed ∧ u.mhash = t.mhash ∧ s.SameSession u ∧ s.SameOperands u ∧ u.dout = s.dout
    ∧ u.wbusy = s.wbusy ∧ s.SameHost u

/-- R231, R234, R235: what MINE_HASH and MINE_TRY leave in MHASH and CHECK depends on HDR outside the nonce
field, NONCE and TARGET alone: not on the session, its mode, or HDR35. -/
def Obligations.MiningIgnoresSession : Prop :=
  ∀ s s' : State, (∀ i : Fin 45, i ≠ 35 → s.hdr[i] = s'.hdr[i]) → s.nonce = s'.nonce → s.target = s'.target →
    ∃ t t' u u', exec .mineHash s = .next t ∧ exec .mineHash s' = .next t' ∧ t.mhash = t'.mhash
      ∧ exec .mineTry s = .next u ∧ exec .mineTry s' = .next u' ∧ u.mhash = u'.mhash ∧ u.chk = u'.chk

/-! ### Rules over all commands -/

/-- No command, legal or not, writes an operand register (R26 to R29, R33, R34, R37, R38, D35), WBUSY
(R46) or the host's own side. -/
def Obligations.NoCommandWritesOperands : Prop :=
  ∀ (w : Word) (s t : State), runWord w s = .next t →
    s.SameOperands t ∧ t.wbusy = s.wbusy ∧ s.SameHost t

/-- R254: STATUS.CHECK changes only by a MINE_CHECK or MINE_TRY that completes. -/
def Obligations.CheckChangedOnlyByMining : Prop :=
  ∀ (w : Word) (s t : State), runWord w s = .next t → t.chk ≠ s.chk →
    t.err = .ok ∧ (decode w = .ok .mineCheck ∨ decode w = .ok .mineTry)

/-- R209: the mode after every command is the table's, and so are E_NO_SESSION and E_STATE; FINALIZE, COMPRESS
and the mining commands leave the session alone; and only the reset input leads back to NONE. -/
def Obligations.ModeTransitionTable : Prop :=
  (∀ (i : Instr) (s : State), i.WellFormed → ∃ t, exec i s = .next t ∧ t.mode = modeAfter i s.mode
    ∧ (t.err = .noSession ↔ s.mode = .none ∧
        match i with
        | .deriveMaterial | .reset | .update _ | .finalize _ => True
        | .init | .initKeyed | .initDerive | .compress _ _ | .mineHash | .mineCheck | .mineTry => False)
    ∧ (t.err = .state ↔
        (i = .deriveMaterial ∧ s.mode ≠ .none ∧ s.mode ≠ .deriveCtx) ∨ (i = .reset ∧ s.mode = .deriveCtx))
    ∧ (match i with
       | .finalize _ | .compress _ _ | .mineHash | .mineCheck | .mineTry => t.session = s.session
       | .init | .initKeyed | .initDerive | .deriveMaterial | .reset | .update _ => True))
  ∧ ∀ s t : State, step s = .next t → t.mode = .none → s.mode ≠ .none → s.host.head? = some .resetInput

/-- The state after reset is legal (R47, R48, R53). -/
def Obligations.ResetStateIsLegal : Prop := State.reset.Inv

/-- Every step, a command's or the host's, keeps the machine legal: the chunk and stack laws (R47, R48,
R175), the capacity of 55 (R45, R173), the counter below 2^55 (R212), and the flags and key of the mode
(R43, R44, R200). That an UPDATE crossing a chunk's end at the capacity is refused is assumption log 10. -/
def Obligations.StepKeepsLegal : Prop :=
  ∀ s t : State, s.Inv → step s = .next t → t.Inv

/-- R290: every accepted command completes, so WAIT ends: with n cycles to pass and WAIT next, n + 2 steps
later BUSY is 0, WAIT is done, its last read showed BUSY = 0, and the rest of the host's list is untouched.
And a read of STATUS is never refused. One step for each cycle is the model's choice (assumption log 4). -/
def Obligations.WaitEnds : Prop :=
  (∀ (s : State) (w : Word) (n : Nat) (rest : List HostStmt),
    s.running = some ⟨w, n⟩ → s.host = .wait :: rest →
    ∃ t, core.run (n + 2) s = .next t ∧ t.running = none ∧ t.host = rest
      ∧ t.answer = some (.data t.statusWord))
  ∧ ∀ s : State, ∃ t, memRead (Config.base + 0x004) .w32 s = .next t

/-- R42, R53: in mode NONE the values of `st.key` and `st.chunk.cv`, which the reset leaves open, have no
effect: every command word ends alike on states that differ only there, and once a session has begun
nothing of the old values is left. So the values the model names at reset (assumption log 1) do not
matter. -/
def Obligations.OpenResetValuesUnobservable : Prop :=
  ∀ (s : State) (k c : ChainingValue) (w : Word), s.mode = .none →
    ∃ t k' c', runWord w s = .next t ∧ runWord w (s.withOpen k c) = .next (t.withOpen k' c')
      ∧ (t.mode ≠ .none → t.withOpen k' c' = t)
      ∧ ∀ r : RegName, readReg (s.withOpen k c) r = readReg s r

/-- R52: what the host can read of the session is the counter, the buffer length, the blocks compressed,
the stack length and the mode flags; sessions that agree on those read the same at every register. -/
def Obligations.HiddenStateNotReadable : Prop :=
  ∀ (s : State) (m : Hasher),
    m.chunk.counter = s.session.chunk.counter → m.chunk.buf.length = s.session.chunk.buf.length →
    m.chunk.blocks = s.session.chunk.blocks → m.stack.length = s.session.stack.length →
    m.flags = s.session.flags → ∀ r : RegName, readReg { s with session := m } r = readReg s r

/-! ### The host's side -/

/-- R22, R61: the window's map, written out in `windowMap`, gives each of the 128 word offsets its register, and
every register has its row. While BUSY = 0, a 32-bit read at a row's offset answers the register's value
and changes nothing else. Each register reads its own storage (R24, R26 to R29, R33 to R38); ID reads
0x42334331 (R23), CMD and the reserved offsets read 0 (R25, R39). -/
def Obligations.IdleReadsAnswerRegisters : Prop :=
  windowMap.map (fun e => e.offset) = (List.range 128).map (fun k => 4 * k)
  ∧ (∀ r : RegName, ∃ e ∈ windowMap, e.reg = r)
  ∧ (∀ s : State, ∀ e ∈ windowMap, s.busy = false →
      memRead (Config.base + e.offset) .w32 s = .next { s with answer := some (.data (readReg s e.reg)) })
  ∧ ∀ s : State,
      readReg s .id = 0x42334331 ∧ readReg s .status = s.statusWord ∧ readReg s .cmd = 0
      ∧ readReg s .seekLo = s.seekLo ∧ readReg s .seekHi = s.seekHi
      ∧ readReg s .ctrLo = s.ctrLo ∧ readReg s .ctrHi = s.ctrHi
      ∧ (∀ i, readReg s (.key i) = s.key[i]) ∧ (∀ i, readReg s (.ccv i) = s.ccv[i])
      ∧ readReg s .nonce = s.nonce
      ∧ (∀ i, readReg s (.din i) = s.din[i]) ∧ (∀ i, readReg s (.dout i) = s.dout[i])
      ∧ (∀ i, readReg s (.mhash i) = s.mhash[i]) ∧ (∀ i, readReg s (.target i) = s.target[i])
      ∧ (∀ i, readReg s (.hdr i) = s.hdr[i]) ∧ ∀ i, readReg s (.reserved i) = 0

/-- R22, R61: while BUSY = 0, a 32-bit write at the offset of a row of the window's map, other than CMD and
STATUS, sets the row's register if the access column says RW and is ignored if it does not; every other
register, the session and the rest keep their value. The offsets and the access column are those written
out in `windowMap`. -/
def Obligations.IdleWritesUpdateOneRegister : Prop :=
  ∀ s : State, ∀ e ∈ windowMap, ∀ v : Word, s.busy = false → e.reg ≠ .cmd → e.reg ≠ .status →
    ∃ t, memWrite (Config.base + e.offset) .w32 v s = .next t
      ∧ readReg t e.reg = (if e.rw then v else readReg s e.reg)
      ∧ (∀ r : RegName, r ≠ e.reg → readReg t r = readReg s r)
      ∧ s.SameSession t ∧ t.err = s.err ∧ t.chk = s.chk ∧ t.wbusy = s.wbusy ∧ t.running = s.running
      ∧ t.host = s.host ∧ t.free = s.free ∧ t.answer = some .done

/-- R25: a write of CMD while BUSY = 0 hands its value to the core and sets BUSY, and changes nothing else;
while BUSY = 1 it is ignored and sets WBUSY; CMD reads 0. -/
def Obligations.CmdWriteStartsCommand : Prop :=
  ∀ (s : State) (v : Word),
    (s.busy = false → ∃ n, memWrite (Config.base + 0x008) .w32 v s
      = .next { s with running := some ⟨v, n⟩, answer := some .done })
    ∧ (s.busy = true → memWrite (Config.base + 0x008) .w32 v s
      = .next { s with wbusy := true, answer := some .done })
    ∧ readReg s .cmd = 0

/-- R24: the fields of STATUS, bit by bit, their reset values, and what a write of it does while BUSY = 0. The
codes of the modes are those of R41 and the error codes those of R251, as numbers. -/
def Obligations.StatusFieldsAndClear : Prop :=
  State.reset.statusWord = 0
  ∧ Mode.none.code = 0 ∧ Mode.default.code = 1 ∧ Mode.keyed.code = 2 ∧ Mode.deriveCtx.code = 3
  ∧ Mode.deriveMat.code = 4
  ∧ Err.ok.code = 0 ∧ Err.illegalOp.code = 1 ∧ Err.badLen.code = 2 ∧ Err.noSession.code = 3
  ∧ Err.state.code = 4 ∧ Err.xofRange.code = 5 ∧ Err.capacity.code = 6
  ∧ ∀ s : State,
    s.statusWord.getLsbD 0 = s.busy ∧ s.statusWord.extractLsb' 1 3 = 0#3
    ∧ s.statusWord.extractLsb' 4 4 = s.err.code ∧ s.err.code.toNat < 7
    ∧ s.statusWord.getLsbD 8 = s.chk
    ∧ s.statusWord.extractLsb' 9 3 = s.mode.code ∧ s.mode.code.toNat < 5
    ∧ s.statusWord.getLsbD 12 = s.wbusy ∧ s.statusWord.extractLsb' 13 19 = 0#19
    ∧ ∀ v : Word, s.busy = false → memWrite (Config.base + 0x004) .w32 v s
        = .next { s with wbusy := s.wbusy && !(v.getLsbD 12), answer := some .done }

/-- R284: a 32-bit aligned write at any offset while BUSY = 1 is ignored and sets WBUSY. -/
def Obligations.WritesWhileBusyAreDropped : Prop :=
  ∀ (s : State) (off : Nat) (v : Word), s.busy = true → off < 512 → off % 4 = 0 →
    memWrite (Config.base + off) .w32 v s = .next { s with wbusy := true, answer := some .done }

/-- R285: while BUSY = 1, a read of ID answers 0x42334331, a read of STATUS the current status with BUSY = 1,
and a read of any other offset some word; none of them changes the block's state. -/
def Obligations.ReadsWhileBusy : Prop :=
  ∀ s : State, s.busy = true →
    memRead Config.base .w32 s = .next { s with answer := some (.data 0x42334331) }
    ∧ memRead (Config.base + 0x004) .w32 s = .next { s with answer := some (.data s.statusWord) }
    ∧ s.statusWord.getLsbD 0 = true
    ∧ ∀ off, off < 512 → off % 4 = 0 → off ≠ 0 → off ≠ 4 → ∃ v f,
        memRead (Config.base + off) .w32 s = .next { s with answer := some (.data v), free := f }

/-- R62, R63 and R256: an access of another width, or at an offset that is not a multiple of 4, is answered with a
bus error, changes nothing of the block, WBUSY included, and a read so answered returns 0. That the error
is an answer to the host, after which the machine goes on, is the model's reading (assumption log 5). -/
def Obligations.BusErrorsChangeNothing : Prop :=
  ∀ (s : State) (off : Nat) (width : AccessWidth) (v : Word), off < 512 → (width ≠ .w32 ∨ off % 4 ≠ 0) →
    ∃ a : Answer, a = .busError (Config.base + off) ∧ a.readValue = 0
      ∧ memRead (Config.base + off) width s = .next { s with answer := some a }
      ∧ memWrite (Config.base + off) width v s = .next { s with answer := some a }

/-- R60: an access outside the window is not decoded by B3C. That the model then stops, with a fault of its
own name, and that the first address alone decides whether an access is outside, are the model's choices
(assumption log 6). -/
def Obligations.OutsideWindowStops : Prop :=
  ∀ (s : State) (addr : Nat) (width : AccessWidth) (v : Word),
    (addr < Config.base ∨ Config.base + 512 ≤ addr) →
    memRead addr width s = .fault (.outsideWindow addr)
    ∧ memWrite addr width v s = .fault (.outsideWindow addr)

/-- R280: the reset input, also while a command is running: the command is abandoned, and every host register
and every piece of internal state the rule gives takes its reset value. The values of `st.key` and
`st.chunk.cv`, which the rule leaves open, are not stated. What the host has still to do is kept, and a
step of a host whose next statement is the reset input is that event, but for the one step in which a
command completes: both are the model's choice (assumption log 7). -/
def Obligations.ResetInputRestoresReset : Prop :=
  (∀ s : State, ∃ t, serve .resetInput s = .next t ∧ t.running = none ∧ t.host = s.host
      ∧ (∀ r : RegName, r ≠ .id → readReg t r = 0) ∧ readReg t .id = 0x42334331
      ∧ t.mode = .none ∧ t.session.flags = 0 ∧ t.session.chunk.counter = 0 ∧ t.session.chunk.buf = []
      ∧ t.session.chunk.blocks = 0 ∧ t.session.stack = [] ∧ t.err = .ok ∧ t.chk = false ∧ t.wbusy = false)
  ∧ ∀ (s : State) (rest : List HostStmt), s.host = .resetInput :: rest → (∀ w, s.running ≠ some ⟨w, 0⟩) →
      step s = serve .resetInput { s with host := rest }

/-- R281, R291: with no command in progress and nothing left for the host to do, B3C waits: a step changes
nothing. So it is after reset. -/
def Obligations.IdleMachineWaits : Prop :=
  (∀ s : State, s.running = none → s.host = [] → step s = .next s) ∧ step State.reset = .next State.reset

/-- R284, R287: while a command has cycles to pass, no step but the reset input changes what the command
reads or anything it writes: its operands stay as they were at the CMD write. -/
def Obligations.OperandsStableWhileBusy : Prop :=
  ∀ (s t : State) (w : Word) (n : Nat), s.running = some ⟨w, n + 1⟩ → s.host.head? ≠ some .resetInput →
    step s = .next t →
    t.running = some ⟨w, n⟩ ∧ s.SameOperands t ∧ s.SameSession t ∧ t.dout = s.dout ∧ t.mhash = s.mhash
      ∧ t.err = s.err ∧ t.chk = s.chk ∧ (s.wbusy = true → t.wbusy = true)

/-- R30, R31, R32: the INFO registers show the counter's halves, the buffer length and the blocks
compressed, the stack length and the mode flags of a legal session; the chunk's length is read off
INFO_CHUNK; they are read-only, and read 0 after reset. -/
def Obligations.InfoRegistersShowSession : Prop :=
  (∀ s : State, s.Inv →
    pairNat (readReg s .infoCtrHi) (readReg s .infoCtrLo) = s.session.chunk.counter.toNat
    ∧ (readReg s .infoChunk).toNat = s.session.chunk.buf.length + 256 * s.session.chunk.blocks
    ∧ s.session.chunk.len = 64 * ((readReg s .infoChunk).toNat / 256) + (readReg s .infoChunk).toNat % 256
    ∧ (readReg s .infoStack).toNat = s.session.stack.length + 256 * s.session.flags.toNat)
  ∧ ∀ r ∈ [RegName.infoCtrLo, .infoCtrHi, .infoChunk, .infoStack],
      r.isRW = false ∧ readReg State.reset r = 0

/-- R102: HASH_BYTES is, for each piece of the input in order, LOAD_DIN of the piece, a CMD write of UPDATE with
its length, and WAIT. The pieces are the input, 64 bytes each but for a shorter last one, none empty.
R101: LOAD_DIN of a string of at most 64 bytes writes the DIN words that hold a byte of it, in order, each
byte in its lane and zeros after the last. -/
def Obligations.HashBytesCoversInput : Prop :=
  (∀ b : List Byte,
    hashBytes b = (pieces b.length b).flatMap (fun p => loadDin p ++
      [.write (Config.base + 0x008) .w32 (BitVec.ofNat 32 (0x10 + 256 * p.length)), .wait])
    ∧ (pieces b.length b).flatten = b
    ∧ (∀ p ∈ pieces b.length b, 1 ≤ p.length ∧ p.length ≤ 64)
    ∧ ∀ p ∈ (pieces b.length b).dropLast, p.length = 64)
  ∧ ∀ p : List Byte, p.length ≤ 64 → ∃ word : Nat → Word,
      loadDin p = (List.range ((p.length + 3) / 4)).map (fun i =>
        .write (Config.base + (0x080 + 4 * i)) .w32 (word i))
      ∧ ∀ i, ∀ j < 4, wordByte (word i) j = p.getD (4 * i + j) 0
end

