-- ==== Sys2Proof/Laws/State.lean ====
section
/-! SUPPORT. One lemma per field per update of State, so that no later proof unfolds a record update. -/

namespace Sys2Proof.Machine

/-! `State.complete` -/
@[simp] theorem State.complete_seekLo (s : State) : s.complete.seekLo = s.seekLo := rfl
@[simp] theorem State.complete_seekHi (s : State) : s.complete.seekHi = s.seekHi := rfl
@[simp] theorem State.complete_ctrLo (s : State) : s.complete.ctrLo = s.ctrLo := rfl
@[simp] theorem State.complete_ctrHi (s : State) : s.complete.ctrHi = s.ctrHi := rfl
@[simp] theorem State.complete_key (s : State) : s.complete.key = s.key := rfl
@[simp] theorem State.complete_ccv (s : State) : s.complete.ccv = s.ccv := rfl
@[simp] theorem State.complete_nonce (s : State) : s.complete.nonce = s.nonce := rfl
@[simp] theorem State.complete_din (s : State) : s.complete.din = s.din := rfl
@[simp] theorem State.complete_dout (s : State) : s.complete.dout = s.dout := rfl
@[simp] theorem State.complete_mhash (s : State) : s.complete.mhash = s.mhash := rfl
@[simp] theorem State.complete_target (s : State) : s.complete.target = s.target := rfl
@[simp] theorem State.complete_hdr (s : State) : s.complete.hdr = s.hdr := rfl
@[simp] theorem State.complete_mode (s : State) : s.complete.mode = s.mode := rfl
@[simp] theorem State.complete_session (s : State) : s.complete.session = s.session := rfl
@[simp] theorem State.complete_err (s : State) : s.complete.err = .ok := rfl
@[simp] theorem State.complete_chk (s : State) : s.complete.chk = s.chk := rfl
@[simp] theorem State.complete_wbusy (s : State) : s.complete.wbusy = s.wbusy := rfl
@[simp] theorem State.complete_running (s : State) : s.complete.running = none := rfl
@[simp] theorem State.complete_host (s : State) : s.complete.host = s.host := rfl
@[simp] theorem State.complete_answer (s : State) : s.complete.answer = s.answer := rfl
@[simp] theorem State.complete_free (s : State) : s.complete.free = s.free := rfl

/-! `State.raise` -/
@[simp] theorem State.raise_seekLo (s : State) (e : Err) : (s.raise e).seekLo = s.seekLo := rfl
@[simp] theorem State.raise_seekHi (s : State) (e : Err) : (s.raise e).seekHi = s.seekHi := rfl
@[simp] theorem State.raise_ctrLo (s : State) (e : Err) : (s.raise e).ctrLo = s.ctrLo := rfl
@[simp] theorem State.raise_ctrHi (s : State) (e : Err) : (s.raise e).ctrHi = s.ctrHi := rfl
@[simp] theorem State.raise_key (s : State) (e : Err) : (s.raise e).key = s.key := rfl
@[simp] theorem State.raise_ccv (s : State) (e : Err) : (s.raise e).ccv = s.ccv := rfl
@[simp] theorem State.raise_nonce (s : State) (e : Err) : (s.raise e).nonce = s.nonce := rfl
@[simp] theorem State.raise_din (s : State) (e : Err) : (s.raise e).din = s.din := rfl
@[simp] theorem State.raise_dout (s : State) (e : Err) : (s.raise e).dout = s.dout := rfl
@[simp] theorem State.raise_mhash (s : State) (e : Err) : (s.raise e).mhash = s.mhash := rfl
@[simp] theorem State.raise_target (s : State) (e : Err) : (s.raise e).target = s.target := rfl
@[simp] theorem State.raise_hdr (s : State) (e : Err) : (s.raise e).hdr = s.hdr := rfl
@[simp] theorem State.raise_mode (s : State) (e : Err) : (s.raise e).mode = s.mode := rfl
@[simp] theorem State.raise_session (s : State) (e : Err) : (s.raise e).session = s.session := rfl
@[simp] theorem State.raise_err (s : State) (e : Err) : (s.raise e).err = e := rfl
@[simp] theorem State.raise_chk (s : State) (e : Err) : (s.raise e).chk = s.chk := rfl
@[simp] theorem State.raise_wbusy (s : State) (e : Err) : (s.raise e).wbusy = s.wbusy := rfl
@[simp] theorem State.raise_running (s : State) (e : Err) : (s.raise e).running = none := rfl
@[simp] theorem State.raise_host (s : State) (e : Err) : (s.raise e).host = s.host := rfl
@[simp] theorem State.raise_answer (s : State) (e : Err) : (s.raise e).answer = s.answer := rfl
@[simp] theorem State.raise_free (s : State) (e : Err) : (s.raise e).free = s.free := rfl

/-! `State.sessionStart` -/
@[simp] theorem State.sessionStart_seekLo (s : State) (k : ChainingValue) (f : Byte) (m : Mode) : (s.sessionStart k f m).seekLo = s.seekLo := rfl
@[simp] theorem State.sessionStart_seekHi (s : State) (k : ChainingValue) (f : Byte) (m : Mode) : (s.sessionStart k f m).seekHi = s.seekHi := rfl
@[simp] theorem State.sessionStart_ctrLo (s : State) (k : ChainingValue) (f : Byte) (m : Mode) : (s.sessionStart k f m).ctrLo = s.ctrLo := rfl
@[simp] theorem State.sessionStart_ctrHi (s : State) (k : ChainingValue) (f : Byte) (m : Mode) : (s.sessionStart k f m).ctrHi = s.ctrHi := rfl
@[simp] theorem State.sessionStart_key (s : State) (k : ChainingValue) (f : Byte) (m : Mode) : (s.sessionStart k f m).key = s.key := rfl
@[simp] theorem State.sessionStart_ccv (s : State) (k : ChainingValue) (f : Byte) (m : Mode) : (s.sessionStart k f m).ccv = s.ccv := rfl
@[simp] theorem State.sessionStart_nonce (s : State) (k : ChainingValue) (f : Byte) (m : Mode) : (s.sessionStart k f m).nonce = s.nonce := rfl
@[simp] theorem State.sessionStart_din (s : State) (k : ChainingValue) (f : Byte) (m : Mode) : (s.sessionStart k f m).din = s.din := rfl
@[simp] theorem State.sessionStart_dout (s : State) (k : ChainingValue) (f : Byte) (m : Mode) : (s.sessionStart k f m).dout = s.dout := rfl
@[simp] theorem State.sessionStart_mhash (s : State) (k : ChainingValue) (f : Byte) (m : Mode) : (s.sessionStart k f m).mhash = s.mhash := rfl
@[simp] theorem State.sessionStart_target (s : State) (k : ChainingValue) (f : Byte) (m : Mode) : (s.sessionStart k f m).target = s.target := rfl
@[simp] theorem State.sessionStart_hdr (s : State) (k : ChainingValue) (f : Byte) (m : Mode) : (s.sessionStart k f m).hdr = s.hdr := rfl
@[simp] theorem State.sessionStart_mode (s : State) (k : ChainingValue) (f : Byte) (m : Mode) : (s.sessionStart k f m).mode = m := rfl
@[simp] theorem State.sessionStart_session (s : State) (k : ChainingValue) (f : Byte) (m : Mode) : (s.sessionStart k f m).session = freshHasher k f := rfl
@[simp] theorem State.sessionStart_err (s : State) (k : ChainingValue) (f : Byte) (m : Mode) : (s.sessionStart k f m).err = s.err := rfl
@[simp] theorem State.sessionStart_chk (s : State) (k : ChainingValue) (f : Byte) (m : Mode) : (s.sessionStart k f m).chk = s.chk := rfl
@[simp] theorem State.sessionStart_wbusy (s : State) (k : ChainingValue) (f : Byte) (m : Mode) : (s.sessionStart k f m).wbusy = s.wbusy := rfl
@[simp] theorem State.sessionStart_running (s : State) (k : ChainingValue) (f : Byte) (m : Mode) : (s.sessionStart k f m).running = s.running := rfl
@[simp] theorem State.sessionStart_host (s : State) (k : ChainingValue) (f : Byte) (m : Mode) : (s.sessionStart k f m).host = s.host := rfl
@[simp] theorem State.sessionStart_answer (s : State) (k : ChainingValue) (f : Byte) (m : Mode) : (s.sessionStart k f m).answer = s.answer := rfl
@[simp] theorem State.sessionStart_free (s : State) (k : ChainingValue) (f : Byte) (m : Mode) : (s.sessionStart k f m).free = s.free := rfl

/-! `State.mineHash` -/
@[simp] theorem State.mineHash_seekLo (s : State) : s.mineHash.seekLo = s.seekLo := rfl
@[simp] theorem State.mineHash_seekHi (s : State) : s.mineHash.seekHi = s.seekHi := rfl
@[simp] theorem State.mineHash_ctrLo (s : State) : s.mineHash.ctrLo = s.ctrLo := rfl
@[simp] theorem State.mineHash_ctrHi (s : State) : s.mineHash.ctrHi = s.ctrHi := rfl
@[simp] theorem State.mineHash_key (s : State) : s.mineHash.key = s.key := rfl
@[simp] theorem State.mineHash_ccv (s : State) : s.mineHash.ccv = s.ccv := rfl
@[simp] theorem State.mineHash_nonce (s : State) : s.mineHash.nonce = s.nonce := rfl
@[simp] theorem State.mineHash_din (s : State) : s.mineHash.din = s.din := rfl
@[simp] theorem State.mineHash_dout (s : State) : s.mineHash.dout = s.dout := rfl
@[simp] theorem State.mineHash_mhash (s : State) : s.mineHash.mhash = bufWords 8 (oneshotHash (workHeader s)) := rfl
@[simp] theorem State.mineHash_target (s : State) : s.mineHash.target = s.target := rfl
@[simp] theorem State.mineHash_hdr (s : State) : s.mineHash.hdr = s.hdr := rfl
@[simp] theorem State.mineHash_mode (s : State) : s.mineHash.mode = s.mode := rfl
@[simp] theorem State.mineHash_session (s : State) : s.mineHash.session = s.session := rfl
@[simp] theorem State.mineHash_err (s : State) : s.mineHash.err = s.err := rfl
@[simp] theorem State.mineHash_chk (s : State) : s.mineHash.chk = s.chk := rfl
@[simp] theorem State.mineHash_wbusy (s : State) : s.mineHash.wbusy = s.wbusy := rfl
@[simp] theorem State.mineHash_running (s : State) : s.mineHash.running = s.running := rfl
@[simp] theorem State.mineHash_host (s : State) : s.mineHash.host = s.host := rfl
@[simp] theorem State.mineHash_answer (s : State) : s.mineHash.answer = s.answer := rfl
@[simp] theorem State.mineHash_free (s : State) : s.mineHash.free = s.free := rfl

/-! `State.mineCheck` -/
@[simp] theorem State.mineCheck_seekLo (s : State) : s.mineCheck.seekLo = s.seekLo := rfl
@[simp] theorem State.mineCheck_seekHi (s : State) : s.mineCheck.seekHi = s.seekHi := rfl
@[simp] theorem State.mineCheck_ctrLo (s : State) : s.mineCheck.ctrLo = s.ctrLo := rfl
@[simp] theorem State.mineCheck_ctrHi (s : State) : s.mineCheck.ctrHi = s.ctrHi := rfl
@[simp] theorem State.mineCheck_key (s : State) : s.mineCheck.key = s.key := rfl
@[simp] theorem State.mineCheck_ccv (s : State) : s.mineCheck.ccv = s.ccv := rfl
@[simp] theorem State.mineCheck_nonce (s : State) : s.mineCheck.nonce = s.nonce := rfl
@[simp] theorem State.mineCheck_din (s : State) : s.mineCheck.din = s.din := rfl
@[simp] theorem State.mineCheck_dout (s : State) : s.mineCheck.dout = s.dout := rfl
@[simp] theorem State.mineCheck_mhash (s : State) : s.mineCheck.mhash = s.mhash := rfl
@[simp] theorem State.mineCheck_target (s : State) : s.mineCheck.target = s.target := rfl
@[simp] theorem State.mineCheck_hdr (s : State) : s.mineCheck.hdr = s.hdr := rfl
@[simp] theorem State.mineCheck_mode (s : State) : s.mineCheck.mode = s.mode := rfl
@[simp] theorem State.mineCheck_session (s : State) : s.mineCheck.session = s.session := rfl
@[simp] theorem State.mineCheck_err (s : State) : s.mineCheck.err = s.err := rfl
@[simp] theorem State.mineCheck_chk (s : State) : s.mineCheck.chk = meets (bufBytes s.mhash) (bufBytes s.target) := rfl
@[simp] theorem State.mineCheck_wbusy (s : State) : s.mineCheck.wbusy = s.wbusy := rfl
@[simp] theorem State.mineCheck_running (s : State) : s.mineCheck.running = s.running := rfl
@[simp] theorem State.mineCheck_host (s : State) : s.mineCheck.host = s.host := rfl
@[simp] theorem State.mineCheck_answer (s : State) : s.mineCheck.answer = s.answer := rfl
@[simp] theorem State.mineCheck_free (s : State) : s.mineCheck.free = s.free := rfl

/-! `State.readStatus` -/
@[simp] theorem State.readStatus_seekLo (s : State) : s.readStatus.seekLo = s.seekLo := rfl
@[simp] theorem State.readStatus_seekHi (s : State) : s.readStatus.seekHi = s.seekHi := rfl
@[simp] theorem State.readStatus_ctrLo (s : State) : s.readStatus.ctrLo = s.ctrLo := rfl
@[simp] theorem State.readStatus_ctrHi (s : State) : s.readStatus.ctrHi = s.ctrHi := rfl
@[simp] theorem State.readStatus_key (s : State) : s.readStatus.key = s.key := rfl
@[simp] theorem State.readStatus_ccv (s : State) : s.readStatus.ccv = s.ccv := rfl
@[simp] theorem State.readStatus_nonce (s : State) : s.readStatus.nonce = s.nonce := rfl
@[simp] theorem State.readStatus_din (s : State) : s.readStatus.din = s.din := rfl
@[simp] theorem State.readStatus_dout (s : State) : s.readStatus.dout = s.dout := rfl
@[simp] theorem State.readStatus_mhash (s : State) : s.readStatus.mhash = s.mhash := rfl
@[simp] theorem State.readStatus_target (s : State) : s.readStatus.target = s.target := rfl
@[simp] theorem State.readStatus_hdr (s : State) : s.readStatus.hdr = s.hdr := rfl
@[simp] theorem State.readStatus_mode (s : State) : s.readStatus.mode = s.mode := rfl
@[simp] theorem State.readStatus_session (s : State) : s.readStatus.session = s.session := rfl
@[simp] theorem State.readStatus_err (s : State) : s.readStatus.err = s.err := rfl
@[simp] theorem State.readStatus_chk (s : State) : s.readStatus.chk = s.chk := rfl
@[simp] theorem State.readStatus_wbusy (s : State) : s.readStatus.wbusy = s.wbusy := rfl
@[simp] theorem State.readStatus_running (s : State) : s.readStatus.running = s.running := rfl
@[simp] theorem State.readStatus_host (s : State) : s.readStatus.host = s.host := rfl
@[simp] theorem State.readStatus_answer (s : State) : s.readStatus.answer = some (.data s.statusWord) := rfl
@[simp] theorem State.readStatus_free (s : State) : s.readStatus.free = s.free := rfl

/-! `State.answerWith` -/
@[simp] theorem State.answerWith_seekLo (s : State) (a : Answer) : (s.answerWith a).seekLo = s.seekLo := rfl
@[simp] theorem State.answerWith_seekHi (s : State) (a : Answer) : (s.answerWith a).seekHi = s.seekHi := rfl
@[simp] theorem State.answerWith_ctrLo (s : State) (a : Answer) : (s.answerWith a).ctrLo = s.ctrLo := rfl
@[simp] theorem State.answerWith_ctrHi (s : State) (a : Answer) : (s.answerWith a).ctrHi = s.ctrHi := rfl
@[simp] theorem State.answerWith_key (s : State) (a : Answer) : (s.answerWith a).key = s.key := rfl
@[simp] theorem State.answerWith_ccv (s : State) (a : Answer) : (s.answerWith a).ccv = s.ccv := rfl
@[simp] theorem State.answerWith_nonce (s : State) (a : Answer) : (s.answerWith a).nonce = s.nonce := rfl
@[simp] theorem State.answerWith_din (s : State) (a : Answer) : (s.answerWith a).din = s.din := rfl
@[simp] theorem State.answerWith_dout (s : State) (a : Answer) : (s.answerWith a).dout = s.dout := rfl
@[simp] theorem State.answerWith_mhash (s : State) (a : Answer) : (s.answerWith a).mhash = s.mhash := rfl
@[simp] theorem State.answerWith_target (s : State) (a : Answer) : (s.answerWith a).target = s.target := rfl
@[simp] theorem State.answerWith_hdr (s : State) (a : Answer) : (s.answerWith a).hdr = s.hdr := rfl
@[simp] theorem State.answerWith_mode (s : State) (a : Answer) : (s.answerWith a).mode = s.mode := rfl
@[simp] theorem State.answerWith_session (s : State) (a : Answer) : (s.answerWith a).session = s.session := rfl
@[simp] theorem State.answerWith_err (s : State) (a : Answer) : (s.answerWith a).err = s.err := rfl
@[simp] theorem State.answerWith_chk (s : State) (a : Answer) : (s.answerWith a).chk = s.chk := rfl
@[simp] theorem State.answerWith_wbusy (s : State) (a : Answer) : (s.answerWith a).wbusy = s.wbusy := rfl
@[simp] theorem State.answerWith_running (s : State) (a : Answer) : (s.answerWith a).running = s.running := rfl
@[simp] theorem State.answerWith_host (s : State) (a : Answer) : (s.answerWith a).host = s.host := rfl
@[simp] theorem State.answerWith_answer (s : State) (a : Answer) : (s.answerWith a).answer = some a := rfl
@[simp] theorem State.answerWith_free (s : State) (a : Answer) : (s.answerWith a).free = s.free := rfl

/-! `State.accept` -/
@[simp] theorem State.accept_seekLo (s : State) (w : Word) : (s.accept w).seekLo = s.seekLo := rfl
@[simp] theorem State.accept_seekHi (s : State) (w : Word) : (s.accept w).seekHi = s.seekHi := rfl
@[simp] theorem State.accept_ctrLo (s : State) (w : Word) : (s.accept w).ctrLo = s.ctrLo := rfl
@[simp] theorem State.accept_ctrHi (s : State) (w : Word) : (s.accept w).ctrHi = s.ctrHi := rfl
@[simp] theorem State.accept_key (s : State) (w : Word) : (s.accept w).key = s.key := rfl
@[simp] theorem State.accept_ccv (s : State) (w : Word) : (s.accept w).ccv = s.ccv := rfl
@[simp] theorem State.accept_nonce (s : State) (w : Word) : (s.accept w).nonce = s.nonce := rfl
@[simp] theorem State.accept_din (s : State) (w : Word) : (s.accept w).din = s.din := rfl
@[simp] theorem State.accept_dout (s : State) (w : Word) : (s.accept w).dout = s.dout := rfl
@[simp] theorem State.accept_mhash (s : State) (w : Word) : (s.accept w).mhash = s.mhash := rfl
@[simp] theorem State.accept_target (s : State) (w : Word) : (s.accept w).target = s.target := rfl
@[simp] theorem State.accept_hdr (s : State) (w : Word) : (s.accept w).hdr = s.hdr := rfl
@[simp] theorem State.accept_mode (s : State) (w : Word) : (s.accept w).mode = s.mode := rfl
@[simp] theorem State.accept_session (s : State) (w : Word) : (s.accept w).session = s.session := rfl
@[simp] theorem State.accept_err (s : State) (w : Word) : (s.accept w).err = s.err := rfl
@[simp] theorem State.accept_chk (s : State) (w : Word) : (s.accept w).chk = s.chk := rfl
@[simp] theorem State.accept_wbusy (s : State) (w : Word) : (s.accept w).wbusy = s.wbusy := rfl
@[simp] theorem State.accept_running (s : State) (w : Word) : (s.accept w).running = some ⟨w, Config.latency w s⟩ := rfl
@[simp] theorem State.accept_host (s : State) (w : Word) : (s.accept w).host = s.host := rfl
@[simp] theorem State.accept_answer (s : State) (w : Word) : (s.accept w).answer = s.answer := rfl
@[simp] theorem State.accept_free (s : State) (w : Word) : (s.accept w).free = s.free := rfl

/-! `State.resetInput`: every field of the block at its reset value. -/
@[simp] theorem State.resetInput_seekLo (s : State) : s.resetInput.seekLo = State.reset.seekLo := rfl
@[simp] theorem State.resetInput_seekHi (s : State) : s.resetInput.seekHi = State.reset.seekHi := rfl
@[simp] theorem State.resetInput_ctrLo (s : State) : s.resetInput.ctrLo = State.reset.ctrLo := rfl
@[simp] theorem State.resetInput_ctrHi (s : State) : s.resetInput.ctrHi = State.reset.ctrHi := rfl
@[simp] theorem State.resetInput_key (s : State) : s.resetInput.key = State.reset.key := rfl
@[simp] theorem State.resetInput_ccv (s : State) : s.resetInput.ccv = State.reset.ccv := rfl
@[simp] theorem State.resetInput_nonce (s : State) : s.resetInput.nonce = State.reset.nonce := rfl
@[simp] theorem State.resetInput_din (s : State) : s.resetInput.din = State.reset.din := rfl
@[simp] theorem State.resetInput_dout (s : State) : s.resetInput.dout = State.reset.dout := rfl
@[simp] theorem State.resetInput_mhash (s : State) : s.resetInput.mhash = State.reset.mhash := rfl
@[simp] theorem State.resetInput_target (s : State) : s.resetInput.target = State.reset.target := rfl
@[simp] theorem State.resetInput_hdr (s : State) : s.resetInput.hdr = State.reset.hdr := rfl
@[simp] theorem State.resetInput_mode (s : State) : s.resetInput.mode = State.reset.mode := rfl
@[simp] theorem State.resetInput_session (s : State) : s.resetInput.session = State.reset.session := rfl
@[simp] theorem State.resetInput_err (s : State) : s.resetInput.err = State.reset.err := rfl
@[simp] theorem State.resetInput_chk (s : State) : s.resetInput.chk = State.reset.chk := rfl
@[simp] theorem State.resetInput_wbusy (s : State) : s.resetInput.wbusy = State.reset.wbusy := rfl
@[simp] theorem State.resetInput_running (s : State) : s.resetInput.running = State.reset.running := rfl
@[simp] theorem State.resetInput_host (s : State) : s.resetInput.host = s.host := rfl
@[simp] theorem State.resetInput_answer (s : State) : s.resetInput.answer = State.reset.answer := rfl
@[simp] theorem State.resetInput_free (s : State) : s.resetInput.free = s.free := rfl

/-! `freshHasher` and `chunkInit` -/
@[simp] theorem freshHasher_key (k : ChainingValue) (f : Byte) : (freshHasher k f).key = k := rfl
@[simp] theorem freshHasher_flags (k : ChainingValue) (f : Byte) : (freshHasher k f).flags = f := rfl
@[simp] theorem freshHasher_chunk (k : ChainingValue) (f : Byte) :
    (freshHasher k f).chunk = chunkInit k f 0 := rfl
@[simp] theorem freshHasher_stack (k : ChainingValue) (f : Byte) : (freshHasher k f).stack = [] := rfl
@[simp] theorem chunkInit_cv (k : ChainingValue) (f : Byte) (n : Word64) : (chunkInit k f n).cv = k := rfl
@[simp] theorem chunkInit_counter (k : ChainingValue) (f : Byte) (n : Word64) :
    (chunkInit k f n).counter = n := rfl
@[simp] theorem chunkInit_buf (k : ChainingValue) (f : Byte) (n : Word64) : (chunkInit k f n).buf = [] := rfl
@[simp] theorem chunkInit_blocks (k : ChainingValue) (f : Byte) (n : Word64) :
    (chunkInit k f n).blocks = 0 := rfl
@[simp] theorem chunkInit_flags (k : ChainingValue) (f : Byte) (n : Word64) :
    (chunkInit k f n).flags = f := rfl
@[simp] theorem chunkInit_len (k : ChainingValue) (f : Byte) (n : Word64) : (chunkInit k f n).len = 0 := rfl

end Sys2Proof.Machine
end

