-- ==== Sys2Proof/Laws/Window.lean ====
section
/-! SUPPORT. The laws of the register window (10_state.md R22, R39): each register has its own word offset, and
what a register write does to every register. -/

namespace Sys2Proof.Machine

/-- The map of R22 is one to one: the register at a register's offset is that register. -/
theorem regAt_offset (r : RegName) : regAt r.offset = r := by
  cases r with
  | key i => revert i; decide
  | ccv i => revert i; decide
  | din i => revert i; decide
  | dout i => revert i; decide
  | mhash i => revert i; decide
  | target i => revert i; decide
  | hdr i => revert i; decide
  | reserved i => revert i; decide
  | _ => rfl

/-- Every word of the window is a register, at that offset (R22: 128 word registers). -/
theorem offset_regAt : ∀ k : Fin 128, (regAt (4 * k.val)).offset = 4 * k.val := by decide

/-- The map written out from R22 gives each register the offset and the access the model uses. -/
theorem windowMap_row : ∀ e ∈ windowMap, e.offset = e.reg.offset ∧ e.rw = e.reg.isRW := by decide +kernel

theorem offset_lt (r : RegName) : r.offset < 512 := by
  cases r with
  | key i => revert i; decide
  | ccv i => revert i; decide
  | din i => revert i; decide
  | dout i => revert i; decide
  | mhash i => revert i; decide
  | target i => revert i; decide
  | hdr i => revert i; decide
  | reserved i => revert i; decide
  | _ => decide

theorem offset_mod (r : RegName) : r.offset % 4 = 0 := by
  cases r with
  | key i => revert i; decide
  | ccv i => revert i; decide
  | din i => revert i; decide
  | dout i => revert i; decide
  | mhash i => revert i; decide
  | target i => revert i; decide
  | hdr i => revert i; decide
  | reserved i => revert i; decide
  | _ => decide

theorem offset_injective (r r' : RegName) (h : r.offset = r'.offset) : r = r' := by
  rw [← regAt_offset r, h, regAt_offset]

/-- An RW register reads back what a write gave it (R61). -/
theorem readReg_writeReg_same (s : State) (r : RegName) (v : Word) (h : r.isRW = true) :
    readReg (writeReg s r v) r = v := by
  cases r <;> simp [RegName.isRW] at h <;> simp [writeReg, readReg]

/-- A register write leaves every other register as it was (R61, R64). -/
theorem readReg_writeReg_other (s : State) (r r' : RegName) (v : Word) (h : r' ≠ r) :
    readReg (writeReg s r v) r' = readReg s r' := by
  cases r <;> cases r' <;>
    first
    | rfl
    | exact absurd rfl h
    | (simp only [writeReg, readReg, Fin.getElem_fin]
       rw [Vector.getElem_set_ne]
       intro he
       exact h (by rw [Fin.ext he]))

/-- A register write changes no session state, no status and none of the model's own fields. -/
theorem writeReg_frame (s : State) (r : RegName) (v : Word) :
    (writeReg s r v).mode = s.mode ∧ (writeReg s r v).session = s.session ∧ (writeReg s r v).err = s.err
      ∧ (writeReg s r v).chk = s.chk ∧ (writeReg s r v).wbusy = s.wbusy
      ∧ (writeReg s r v).running = s.running ∧ (writeReg s r v).host = s.host
      ∧ (writeReg s r v).answer = s.answer ∧ (writeReg s r v).free = s.free := by
  cases r <;> exact ⟨rfl, rfl, rfl, rfl, rfl, rfl, rfl, rfl, rfl⟩

end Sys2Proof.Machine
end

