-- ==== Sys2Proof/Laws/Bus.lean ====
section
/-! SUPPORT. The laws of the host's side (20_memory.md R61 to R65): an access by a register's name, and what a
host cycle can do. -/

namespace Sys2Proof.Machine

theorem base_mod : Config.base % 512 = 0 := by simp [Config.base]

/-- A register's bus address lies in the window. -/
theorem inWindow_reg (r : RegName) : inWindow (Config.base + r.offset) := by
  have := offset_lt r
  constructor <;> omega

/-- A 32-bit access to a register's bus address is one B3C takes. -/
theorem accepts_reg (r : RegName) : accepts (Config.base + r.offset) .w32 := by
  refine ⟨rfl, ?_⟩
  rw [Nat.add_sub_cancel_left]
  exact offset_mod r

/-- A read of a register by name (R61). -/
theorem memRead_reg (s : State) (r : RegName) :
    memRead (Config.base + r.offset) .w32 s = .next (readAt s r.offset) := by
  unfold memRead
  rw [if_neg (not_not_intro (inWindow_reg r)), if_neg (not_not_intro (accepts_reg r)),
    Nat.add_sub_cancel_left]

/-- A write of a register by name (R61). -/
theorem memWrite_reg (s : State) (r : RegName) (v : Word) :
    memWrite (Config.base + r.offset) .w32 v s = .next ((writeAt s r.offset v).answerWith .done) := by
  unfold memWrite
  rw [if_neg (not_not_intro (inWindow_reg r)), if_neg (not_not_intro (accepts_reg r)),
    Nat.add_sub_cancel_left]

/-- A write at a register's offset while idle, by what the register is (R24, R25, R61). -/
theorem writeIdle_reg (s : State) (r : RegName) (v : Word) (h1 : r ≠ .cmd) (h2 : r ≠ .status) :
    writeIdle s r.offset v = writeReg s r v := by
  unfold writeIdle
  rw [regAt_offset]
  split
  · exact absurd rfl h1
  · exact absurd rfl h2
  · rfl

/-- Every read answers or faults, and changes only the answer and the freshness counter (R65). -/
theorem readAt_frame (s : State) (off : Nat) :
    ∃ v f, readAt s off = { s with answer := some (.data v), free := f } := by
  unfold readAt
  split
  · exact ⟨_, _, rfl⟩
  · exact ⟨_, s.free, rfl⟩

@[simp] theorem tick_idle (s : State) (h : s.running = none) : s.tick = s := by
  simp [State.tick, h]

@[simp] theorem tick_running (s : State) (w : Word) (n : Nat) (h : s.running = some ⟨w, n + 1⟩) :
    s.tick = { s with running := some ⟨w, n⟩ } := by
  simp [State.tick, h]

/-- The step while a command has cycles to pass: a host cycle, the command one cycle nearer (R289). -/
theorem step_running (s : State) (w : Word) (n : Nat) (h : s.running = some ⟨w, n + 1⟩) :
    step s = hostCycle { s with running := some ⟨w, n⟩ } := by
  unfold step cycle
  rw [tick_running s w n h]
  simp only [h]

/-- The step with no command in progress: a host cycle. -/
theorem step_idle (s : State) (h : s.running = none) : step s = hostCycle s := by
  unfold step cycle
  rw [tick_idle s h]
  simp only [h]

end Sys2Proof.Machine
end

