-- ==== Sys2Proof/Laws/Bytes.lean ====
section
/-! SUPPORT. The laws of byte strings and words (00_scope.md R10, 10_state.md R40): lengths, and that the two
views of a register array are inverse. -/

namespace Sys2Proof.Machine

@[simp] theorem leBytes_length (w : Word) : (leBytes w).length = 4 := rfl

@[simp] theorem zeros_length (n : Nat) : (zeros n).length = n := by simp [zeros]

@[simp] theorem flatMap_leBytes_length (l : List Word) : (l.flatMap leBytes).length = 4 * l.length := by
  induction l with
  | nil => rfl
  | cons w l ih => simp only [List.flatMap_cons, List.length_append, ih, leBytes_length, List.length_cons]; omega

@[simp] theorem bufBytes_length {n : Nat} (v : Vector Word n) : (bufBytes v).length = 4 * n := by
  rw [bufBytes, flatMap_leBytes_length, Vector.length_toList]

/-- The four bytes of a word, read as a word, are the word. -/
theorem le32_leBytes (w : Word) (rest : List Byte) : le32 (leBytes w ++ rest) 0 = w := by
  simp only [le32, leBytes, byteAt, List.cons_append, List.nil_append]
  apply BitVec.eq_of_getLsbD_eq
  intro i hi
  simp only [List.getD_cons_zero, List.getD_cons_succ, BitVec.getLsbD_or, BitVec.getLsbD_setWidth,
    BitVec.getLsbD_shiftLeft, BitVec.getLsbD_extractLsb']
  interval_cases i <;> simp

/-- The word of four bytes has those bytes. -/
theorem leBytes_le32 (a b c d : Byte) (rest : List Byte) :
    leBytes (le32 (a :: b :: c :: d :: rest) 0) = [a, b, c, d] := by
  simp only [le32, leBytes, byteAt, List.getD_cons_zero, List.getD_cons_succ, List.cons.injEq, and_true]
  refine ⟨?_, ?_, ?_, ?_⟩ <;> apply BitVec.eq_of_getLsbD_eq <;> intro i hi <;>
    simp only [BitVec.getLsbD_or, BitVec.getLsbD_setWidth, BitVec.getLsbD_shiftLeft,
      BitVec.getLsbD_extractLsb'] <;> interval_cases i <;> simp

/-- `LE32` at byte `k + i` is `LE32` at byte `i` of the string without its first `k` bytes. -/
theorem le32_drop (b : List Byte) (k i : Nat) : le32 (b.drop k) i = le32 b (k + i) := by
  simp [le32, byteAt, Nat.add_assoc]

theorem le32_flatMap (l : List Word) (i : Nat) (h : i < l.length) :
    le32 (l.flatMap leBytes) (4 * i) = l[i] := by
  induction l generalizing i with
  | nil => simp at h
  | cons w l ih =>
    cases i with
    | zero => exact le32_leBytes w _
    | succ i =>
      have hd : (List.flatMap leBytes (w :: l)).drop 4 = l.flatMap leBytes := by simp [leBytes]
      have := ih i (by simpa using h)
      rw [← hd, le32_drop] at this
      rw [show 4 * (i + 1) = 4 + 4 * i by omega, this]
      rfl

/-- `reg[NAMEi] = LE32(buf(NAME, n), 4i)` (R40). -/
theorem le32_bufBytes {n : Nat} (v : Vector Word n) (i : Nat) (h : i < n) :
    le32 (bufBytes v) (4 * i) = v[i] := by
  have := le32_flatMap v.toList i (by simpa using h)
  rwa [Vector.getElem_toList] at this

/-- Writing a buffer with its own bytes changes nothing. -/
@[simp] theorem bufWords_bufBytes {n : Nat} (v : Vector Word n) : bufWords n (bufBytes v) = v := by
  ext i h
  simp [bufWords, le32_bufBytes v i h]

theorem flatMap_leBytes_ofFn (n : Nat) (b : List Byte) (h : b.length = 4 * n) :
    (List.ofFn fun i : Fin n => le32 b (4 * i.val)).flatMap leBytes = b := by
  induction n generalizing b with
  | zero => simpa using h
  | succ n ih =>
    match b, h with
    | x :: y :: z :: w :: rest, h =>
      have hr : rest.length = 4 * n := by simp only [List.length_cons] at h; omega
      have := ih rest hr
      simp only [List.ofFn_succ, List.flatMap_cons, Fin.val_zero, Nat.mul_zero, leBytes_le32,
        List.cons_append, List.nil_append]
      have hs : ∀ i : Fin n, le32 (x :: y :: z :: w :: rest) (4 * i.succ.val) = le32 rest (4 * i.val) := by
        intro i
        have := le32_drop (x :: y :: z :: w :: rest) 4 (4 * i.val)
        rw [Fin.val_succ, show 4 * (i.val + 1) = 4 + 4 * i.val by omega, ← this]
        rfl
      simp only [hs, this]

/-- The byte view of a buffer written with `b` is `b` (R40). -/
theorem bufBytes_bufWords (n : Nat) (b : List Byte) (h : b.length = 4 * n) :
    bufBytes (bufWords n b) = b := by
  have := flatMap_leBytes_ofFn n b h
  rwa [← Vector.toList_ofFn] at this

/-- Byte `k` of `buf(NAME, n)` is bits `8*(k mod 4)+7 : 8*(k mod 4)` of register `k div 4` (R40). -/
theorem byteAt_bufBytes {n : Nat} (v : Vector Word n) (k : Nat) (h : k < 4 * n) :
    byteAt (bufBytes v) k = (v[k / 4]'(by omega)).extractLsb' (8 * (k % 4)) 8 := by
  have key : ∀ (l : List Word) (k : Nat) (hk : k / 4 < l.length),
      byteAt (l.flatMap leBytes) k = (l[k / 4]).extractLsb' (8 * (k % 4)) 8 := by
    intro l
    induction l with
    | nil => intro k hk; simp at hk
    | cons w l ih =>
      intro k hk
      match k, hk with
      | 0, _ => rfl
      | 1, _ => rfl
      | 2, _ => rfl
      | 3, _ => rfl
      | k + 4, hk =>
        have h1 : (k + 4) / 4 = k / 4 + 1 := by omega
        have h2 : (k + 4) % 4 = k % 4 := by omega
        have h3 : k / 4 < l.length := by
          rw [h1] at hk; simpa using hk
        have := ih k h3
        simp only [h1, h2, List.getElem_cons_succ, ← this]
        rfl
  have := key v.toList k (by simp; omega)
  rwa [Vector.getElem_toList] at this

end Sys2Proof.Machine
end

