-- ==== Sys2Proof/Laws/Chunk.lean ====
section
/-! SUPPORT. The laws of the chunk accumulator (41_chunk.md): `chunkUpdate` absorbs its input byte by byte,
so its length, its counter and its legality follow by induction on the input. -/

namespace Sys2Proof.Machine

/-- Absorb one byte: a full buffer is compressed first, since more input follows it (R153). -/
def absorbByte (F : Byte) (c : Chunk) (x : Byte) : Chunk :=
  if c.buf.length = blockLen then { c.compressBlock F c.buf with buf := [x] }
  else { c with buf := c.buf ++ [x] }

@[simp] theorem compressBlock_counter (F : Byte) (c : Chunk) (b : List Byte) :
    (c.compressBlock F b).counter = c.counter := rfl
@[simp] theorem compressBlock_flags (F : Byte) (c : Chunk) (b : List Byte) :
    (c.compressBlock F b).flags = c.flags := rfl
@[simp] theorem compressBlock_blocks (F : Byte) (c : Chunk) (b : List Byte) :
    (c.compressBlock F b).blocks = c.blocks + 1 := rfl
@[simp] theorem compressBlock_buf (F : Byte) (c : Chunk) (b : List Byte) :
    (c.compressBlock F b).buf = c.buf := rfl

/-- Bytes that fit the buffer are appended to it. -/
theorem foldl_absorbByte_fits (F : Byte) (c : Chunk) (b : List Byte)
    (h : c.buf.length + b.length ≤ blockLen) :
    b.foldl (absorbByte F) c = { c with buf := c.buf ++ b } := by
  induction b generalizing c with
  | nil => simp
  | cons x b ih =>
    simp only [List.length_cons, blockLen] at h
    have hc : absorbByte F c x = { c with buf := c.buf ++ [x] } :=
      if_neg (by simp only [blockLen]; omega)
    rw [List.foldl_cons, hc, ih _ (by simp only [List.length_append, List.length_cons, List.length_nil, blockLen]; omega)]
    simp

/-- With a full buffer and more input, the buffer is compressed and emptied. -/
theorem foldl_absorbByte_full (F : Byte) (c : Chunk) (b : List Byte) (hb : b ≠ [])
    (h : c.buf.length = blockLen) :
    b.foldl (absorbByte F) c = b.foldl (absorbByte F) { c.compressBlock F c.buf with buf := [] } := by
  match b, hb with
  | x :: b, _ =>
    simp only [List.foldl_cons]
    congr 1
    simp [absorbByte, h]

/-- Compressing a buffer filled from empty is compressing its bytes directly. -/
theorem compressBlock_of_empty (F : Byte) (c : Chunk) (x : List Byte) (hc : c.buf = []) :
    { Chunk.compressBlock F { c with buf := c.buf ++ x } (c.buf ++ x) with buf := [] }
      = c.compressBlock F x := by
  obtain ⟨cv, counter, buf, blocks, flags⟩ := c
  subst hc
  simp only [List.nil_append]
  rfl

/-- With an empty buffer and more than a block of input, the first block is compressed directly. -/
theorem foldl_absorbByte_block (F : Byte) (c : Chunk) (b : List Byte) (hc : c.buf = [])
    (h : blockLen < b.length) :
    b.foldl (absorbByte F) c
      = (b.drop blockLen).foldl (absorbByte F) (c.compressBlock F (b.take blockLen)) := by
  have hlen : (b.take blockLen).length = blockLen := by
    simp only [List.length_take, blockLen] at h ⊢; omega
  have hne : b.drop blockLen ≠ [] := by
    intro he
    have := congrArg List.length he
    simp only [List.length_drop, List.length_nil, blockLen] at this h; omega
  conv_lhs => rw [← List.take_append_drop blockLen b, List.foldl_append]
  have hfull : (c.buf ++ b.take blockLen).length = blockLen := by rw [hc, List.nil_append, hlen]
  rw [foldl_absorbByte_fits F c _ (by rw [hc, hlen]; simp), foldl_absorbByte_full F _ _ hne hfull]
  rw [compressBlock_of_empty F c _ hc]

theorem chunkWholeBlocks_spec (F : Byte) (fuel : Nat) (c : Chunk) (b : List Byte) (hc : c.buf = [])
    (hf : b.length ≤ fuel) :
    let r := chunkWholeBlocks F fuel c b
    { r.1 with buf := r.1.buf ++ r.2 } = b.foldl (absorbByte F) c := by
  induction fuel generalizing c b with
  | zero =>
    have : b = [] := List.eq_nil_of_length_eq_zero (by omega)
    subst this
    obtain ⟨cv, counter, buf, blocks, flags⟩ := c
    subst hc
    rfl
  | succ fuel ih =>
    unfold chunkWholeBlocks
    split
    · next h =>
      rw [foldl_absorbByte_block F c b hc h]
      exact ih _ _ (by simp [hc]) (by simp only [List.length_drop, blockLen]; omega)
    · next h =>
      rw [foldl_absorbByte_fits F c b (by rw [hc]; simp only [blockLen, List.length_nil] at h ⊢; omega)]

/-- `chunkUpdate` absorbs its input one byte at a time (R153). -/
theorem chunkUpdate_eq_foldl (F : Byte) (c : Chunk) (b : List Byte) (h : c.buf.length ≤ blockLen) :
    chunkUpdate F c b = b.foldl (absorbByte F) c := by
  have hempty : ∀ c' : Chunk, c'.buf = [] → ∀ b' : List Byte,
      (let r := chunkWholeBlocks F b'.length c' b'
       { r.1 with buf := r.1.buf ++ r.2 }) = b'.foldl (absorbByte F) c' :=
    fun c' hc b' => chunkWholeBlocks_spec F b'.length c' b' hc (Nat.le_refl _)
  unfold chunkUpdate chunkTopUp
  by_cases h0 : 0 < c.buf.length
  · simp only [h0, if_true]
    set take := min (blockLen - c.buf.length) b.length with htake
    have hsplit : b.foldl (absorbByte F) c
        = (b.drop take).foldl (absorbByte F) { c with buf := c.buf ++ b.take take } := by
      conv_lhs => rw [← List.take_append_drop take b, List.foldl_append]
      rw [foldl_absorbByte_fits F c _ (by simp only [List.length_take, blockLen] at *; omega)]
    rw [hsplit]
    by_cases hfull : (c.buf ++ b.take take).length = blockLen ∧ 0 < (b.drop take).length
    · simp only [hfull, if_true, and_self]
      rw [foldl_absorbByte_full F _ _ (List.ne_nil_of_length_pos hfull.2) hfull.1]
      exact hempty _ rfl _
    · simp only [hfull, if_false]
      have hnil : b.drop take = [] := by
        apply List.eq_nil_of_length_eq_zero
        simp only [List.length_append, List.length_take, List.length_drop, blockLen] at hfull htake h ⊢
        omega
      simp [hnil, chunkWholeBlocks]
  · have hc : c.buf = [] := List.eq_nil_of_length_eq_zero (by omega)
    simp only [h0, if_false]
    exact hempty c hc b

theorem absorbByte_buf_le (F : Byte) (c : Chunk) (x : Byte) (h : c.buf.length ≤ blockLen) :
    (absorbByte F c x).buf.length ≤ blockLen := by
  unfold absorbByte
  split <;> simp only [List.length_append, List.length_cons, List.length_nil, blockLen] at * <;> omega

/-- One more byte makes the chunk one byte longer (R151). -/
theorem absorbByte_len (F : Byte) (c : Chunk) (x : Byte) (_h : c.buf.length ≤ blockLen) :
    (absorbByte F c x).len = c.len + 1 := by
  unfold absorbByte Chunk.len
  split
  · next h' => simp only [compressBlock_blocks, List.length_cons, List.length_nil, h', blockLen]; omega
  · simp only [List.length_append, List.length_cons, List.length_nil]; omega

@[simp] theorem absorbByte_counter (F : Byte) (c : Chunk) (x : Byte) :
    (absorbByte F c x).counter = c.counter := by unfold absorbByte; split <;> rfl

@[simp] theorem absorbByte_flags (F : Byte) (c : Chunk) (x : Byte) :
    (absorbByte F c x).flags = c.flags := by unfold absorbByte; split <;> rfl

/-- The length laws of R47 that need no bound on the counter. -/
def Chunk.Sized (c : Chunk) : Prop :=
  c.buf.length ≤ blockLen ∧ c.blocks ≤ 15 ∧ (1 ≤ c.blocks → 1 ≤ c.buf.length)

theorem chunkInit_sized (k : ChainingValue) (F : Byte) (n : Word64) : (chunkInit k F n).Sized := by
  simp [Chunk.Sized]

theorem absorbByte_sized (F : Byte) (c : Chunk) (x : Byte) (h : c.Sized) (hl : c.len < chunkLen) :
    (absorbByte F c x).Sized := by
  obtain ⟨h1, h2, h3⟩ := h
  unfold absorbByte Chunk.Sized
  unfold Chunk.len at hl
  split
  · next h' =>
    simp only [compressBlock_blocks, List.length_cons, List.length_nil, blockLen, chunkLen] at *
    omega
  · simp only [List.length_append, List.length_cons, List.length_nil, blockLen, chunkLen] at *
    omega

end Sys2Proof.Machine
end

