-- ==== Sys2Proof/Laws/Tree.lean ====
section
/-! SUPPORT. The laws of the CV stack and the finalizer (42_tree_finalize.md): a push leaves the stack as long
as the chunk count has one bits, `hasherUpdate` absorbs its input byte by byte, and what each keeps. -/

namespace Sys2Proof.Machine

/-! ### popcount -/

theorem popcountBits_succ_le (bits n : Nat) : popcountBits bits (n + 1) ≤ popcountBits bits n + 1 := by
  induction bits generalizing n with
  | zero => simp [popcountBits]
  | succ bits ih =>
    simp only [popcountBits]
    rcases Nat.mod_two_eq_zero_or_one n with h | h
    · have h1 : (n + 1) % 2 = 1 := by omega
      have h2 : (n + 1) / 2 = n / 2 := by omega
      rw [h1, h2, h]; omega
    · have h1 : (n + 1) % 2 = 0 := by omega
      have h2 : (n + 1) / 2 = n / 2 + 1 := by omega
      have := ih (n / 2)
      rw [h1, h2, h]; omega

theorem popcountBits_pos (bits n : Nat) (h0 : 0 < n) (h : n < 2 ^ bits) : 0 < popcountBits bits n := by
  induction bits generalizing n with
  | zero => simp at h; omega
  | succ bits ih =>
    simp only [popcountBits]
    rcases Nat.mod_two_eq_zero_or_one n with h2 | h2
    · have := ih (n / 2) (by omega) (by rw [Nat.pow_succ] at h; omega)
      omega
    · omega

theorem popcount_succ_le (n : Nat) : popcount (n + 1) ≤ popcount n + 1 := popcountBits_succ_le 65 n

theorem popcount_pos (n : Nat) (h0 : 0 < n) (h : n < 2 ^ 65) : 0 < popcount n :=
  popcountBits_pos 65 n h0 h

@[simp] theorem popcount_zero : popcount 0 = 0 := by decide

/-! ### The merge loop -/

/-- The merge loop ends at `popcount(total)` when it starts at or above it (R172). -/
theorem mergeLoop_length (K : ChainingValue) (F : Byte) (total fuel : Nat) (st : List ChainingValue)
    (hp : 0 < popcount total) (hf : st.length ≤ fuel) (h : popcount total ≤ st.length) :
    (mergeLoop K F total fuel st).length = popcount total := by
  induction fuel generalizing st with
  | zero => simp only [mergeLoop]; omega
  | succ fuel ih =>
    unfold mergeLoop
    split
    · next hlt =>
      split
      · next r l rest hr =>
        have hlen : st.length = rest.length + 2 := by
          have := congrArg List.length hr
          simpa using this
        apply ih
        · simp only [List.length_append, List.length_reverse, List.length_cons, List.length_nil]; omega
        · simp only [List.length_append, List.length_reverse, List.length_cons, List.length_nil]; omega
      · next hne =>
        exfalso
        match hs : st.reverse with
        | [] => have := congrArg List.length hs; simp only [List.length_reverse, List.length_nil] at this; omega
        | [_] => have := congrArg List.length hs; simp only [List.length_reverse, List.length_cons, List.length_nil] at this; omega
        | r :: l :: rest => exact hne r l rest hs
    · omega

/-- A push of chunk `total` onto a stack that mirrors `total - 1` leaves one that mirrors `total`. -/
theorem pushCv_length (K : ChainingValue) (F : Byte) (st : List ChainingValue) (cv : ChainingValue)
    (n : Nat) (hn : n + 1 < 2 ^ 65) (h : st.length = popcount n) :
    (pushCv K F st cv (n + 1)).length = popcount (n + 1) := by
  have := popcount_succ_le n
  exact mergeLoop_length K F (n + 1) _ _ (popcount_pos _ (by omega) hn) (Nat.le_refl _)
    (by simp only [List.length_append, List.length_cons, List.length_nil]; omega)

/-! ### hasherUpdate -/

/-- Absorb one byte into the session: a full chunk is output and pushed first (R174). -/
def Hasher.absorb (m : Hasher) (x : Byte) : Hasher :=
  let m := if m.chunk.len = chunkLen then m.nextChunk else m
  { m with chunk := absorbByte m.flags m.chunk x }

@[simp] theorem nextChunk_key (m : Hasher) : m.nextChunk.key = m.key := rfl
@[simp] theorem nextChunk_flags (m : Hasher) : m.nextChunk.flags = m.flags := rfl
@[simp] theorem nextChunk_chunk (m : Hasher) :
    m.nextChunk.chunk = chunkInit m.key m.flags (BitVec.ofNat 64 (m.chunk.counter.toNat + 1)) := rfl

@[simp] theorem absorb_key (m : Hasher) (x : Byte) : (m.absorb x).key = m.key := by
  unfold Hasher.absorb; split <;> rfl
@[simp] theorem absorb_flags (m : Hasher) (x : Byte) : (m.absorb x).flags = m.flags := by
  unfold Hasher.absorb; split <;> rfl

theorem foldl_absorbByte_len (F : Byte) (c : Chunk) (b : List Byte) (h : c.buf.length ≤ blockLen) :
    (b.foldl (absorbByte F) c).len = c.len + b.length ∧ (b.foldl (absorbByte F) c).buf.length ≤ blockLen := by
  induction b generalizing c with
  | nil => exact ⟨rfl, h⟩
  | cons x b ih =>
    have := ih (absorbByte F c x) (absorbByte_buf_le F c x h)
    rw [absorbByte_len F c x h] at this
    simp only [List.foldl_cons, List.length_cons]
    exact ⟨by omega, this.2⟩

/-- While the chunk has room, absorbing into the session is absorbing into the chunk. -/
theorem foldl_absorb_room (m : Hasher) (b : List Byte) (h : m.chunk.buf.length ≤ blockLen)
    (hl : m.chunk.len + b.length ≤ chunkLen) :
    b.foldl Hasher.absorb m = { m with chunk := b.foldl (absorbByte m.flags) m.chunk } := by
  induction b generalizing m with
  | nil => rfl
  | cons x b ih =>
    simp only [List.length_cons] at hl
    have hx : m.absorb x = { m with chunk := absorbByte m.flags m.chunk x } := by
      unfold Hasher.absorb
      rw [if_neg (by simp only [chunkLen] at hl ⊢; omega)]
    rw [List.foldl_cons, hx, ih _ (absorbByte_buf_le _ _ _ h) (by rw [absorbByte_len _ _ _ h]; omega)]
    rfl

theorem absorb_full (m : Hasher) (b : List Byte) (hb : b ≠ []) (h : m.chunk.len = chunkLen) :
    b.foldl Hasher.absorb m = b.foldl Hasher.absorb m.nextChunk := by
  match b, hb with
  | x :: b, _ =>
    simp only [List.foldl_cons]
    congr 1
    unfold Hasher.absorb
    rw [if_pos h, if_neg (by rw [nextChunk_chunk, chunkInit_len]; simp only [chunkLen]; omega)]

theorem hasherLoop_eq_foldl (fuel : Nat) (m : Hasher) (b : List Byte) (hf : b.length ≤ fuel)
    (h : m.chunk.buf.length ≤ blockLen) (hl : m.chunk.len ≤ chunkLen) :
    hasherLoop fuel m b = b.foldl Hasher.absorb m := by
  induction fuel generalizing m b with
  | zero =>
    have : b = [] := List.eq_nil_of_length_eq_zero (by omega)
    subst this
    rfl
  | succ fuel ih =>
    unfold hasherLoop
    split
    · next hb => subst hb; rfl
    · next hb =>
      have hpos : 0 < b.length := List.length_pos_of_ne_nil hb
      have step : ∀ m : Hasher, m.chunk.buf.length ≤ blockLen → m.chunk.len < chunkLen →
          (let take := min (chunkLen - m.chunk.len) b.length
           hasherLoop fuel { m with chunk := chunkUpdate m.flags m.chunk (b.take take) } (b.drop take))
            = b.foldl Hasher.absorb m := by
        intro m h hl
        set take := min (chunkLen - m.chunk.len) b.length with htake
        have htl : (b.take take).length = take := by
          simp only [List.length_take, htake]; omega
        have hu := chunkUpdate_eq_foldl m.flags m.chunk (b.take take) h
        have hlen := foldl_absorbByte_len m.flags m.chunk (b.take take) h
        rw [htl] at hlen
        have hroom := foldl_absorb_room m (b.take take) h (by rw [htl, htake]; omega)
        simp only
        rw [hu, ih _ _ (by simp only [List.length_drop, htake]; omega) hlen.2 (by rw [hlen.1, htake]; omega),
          ← hroom, ← List.foldl_append, List.take_append_drop]
      by_cases hfull : m.chunk.len = chunkLen
      · simp only [hfull, if_true]
        rw [absorb_full m b hb hfull]
        exact step m.nextChunk (by simp) (by simp)
      · simp only [hfull, if_false]
        exact step m h (by simp only [chunkLen] at *; omega)

/-- `hasherUpdate` absorbs its input one byte at a time (R174). -/
theorem hasherUpdate_eq_foldl (m : Hasher) (b : List Byte) (h : m.chunk.buf.length ≤ blockLen)
    (hl : m.chunk.len ≤ chunkLen) : hasherUpdate m b = b.foldl Hasher.absorb m :=
  hasherLoop_eq_foldl b.length m b (Nat.le_refl _) h hl

theorem Chunk.Sized.len_le {c : Chunk} (h : c.Sized) : c.len ≤ chunkLen := by
  obtain ⟨h1, h2, _⟩ := h
  simp only [Chunk.len, blockLen, chunkLen] at *
  omega

theorem absorb_sized (m : Hasher) (x : Byte) (h : m.chunk.Sized) : (m.absorb x).chunk.Sized := by
  unfold Hasher.absorb
  split
  · exact absorbByte_sized _ _ _ (chunkInit_sized _ _ _) (by simp)
  · next hne =>
    have := h.len_le
    exact absorbByte_sized _ _ _ h (by omega)

@[simp] theorem hasherUpdate_nil (m : Hasher) : hasherUpdate m [] = m := rfl

/-- A session that is legal but for a chunk that may still be empty under a non-empty stack. -/
structure Hasher.Ready (m : Hasher) : Prop where
  sized   : m.chunk.Sized
  counter : m.chunk.counter.toNat < 2 ^ 55
  stack   : m.stack.length = popcount m.chunk.counter.toNat
  room    : m.stack.length ≤ 55
  flags   : m.chunk.flags = m.flags

theorem Hasher.Legal.ready {m : Hasher} (h : m.Legal) : m.Ready :=
  ⟨⟨h.1.1, h.1.2.1, h.1.2.2.1⟩, h.1.2.2.2, h.2.1, h.2.2.1, h.2.2.2.2⟩

/-- A byte into a chunk with room leaves a legal session. -/
theorem Hasher.Ready.absorbByte_legal {m : Hasher} (h : m.Ready) (x : Byte) (hl : m.chunk.len < chunkLen) :
    Hasher.Legal { m with chunk := absorbByte m.flags m.chunk x } := by
  have hs := absorbByte_sized m.flags m.chunk x h.sized hl
  have hlen := absorbByte_len m.flags m.chunk x h.sized.1
  refine ⟨⟨hs.1, hs.2.1, hs.2.2, ?_⟩, ?_, h.room, fun _ => ?_, ?_⟩
  · show (absorbByte m.flags m.chunk x).counter.toNat < 2 ^ 55
    rw [absorbByte_counter]; exact h.counter
  · show m.stack.length = popcount (absorbByte m.flags m.chunk x).counter.toNat
    rw [absorbByte_counter]; exact h.stack
  · show 1 ≤ (absorbByte m.flags m.chunk x).len
    omega
  · show (absorbByte m.flags m.chunk x).flags = m.flags
    rw [absorbByte_flags]; exact h.flags

/-- A stack of fewer than 55 entries leaves the counter room to grow (R173). -/
theorem counter_succ_lt (n : Nat) (hn : n < 2 ^ 55) (h : popcount n < 55) : n + 1 < 2 ^ 55 := by
  rcases Nat.lt_or_ge (n + 1) (2 ^ 55) with h' | h'
  · exact h'
  · have hn' : n = 36028797018963967 := by omega
    have hp : popcount 36028797018963967 = 55 := by decide
    rw [hn', hp] at h
    omega

/-- Pushing a full chunk onto a stack with room (R172, R173): one more chunk counted. -/
theorem Hasher.Ready.nextChunk {m : Hasher} (h : m.Ready) (hroom : m.stack.length < 55) :
    m.nextChunk.Ready ∧ m.nextChunk.chunk.counter.toNat = m.chunk.counter.toNat + 1 := by
  have hlt := counter_succ_lt _ h.counter (by rw [← h.stack]; exact hroom)
  have hc : m.nextChunk.chunk.counter.toNat = m.chunk.counter.toNat + 1 := by
    rw [nextChunk_chunk, chunkInit_counter, BitVec.toNat_ofNat]
    exact Nat.mod_eq_of_lt (by omega)
  have hlen : m.nextChunk.stack.length = popcount (m.chunk.counter.toNat + 1) :=
    pushCv_length m.key m.flags m.stack _ m.chunk.counter.toNat (by omega) h.stack
  have hle := popcount_succ_le m.chunk.counter.toNat
  have hs := h.stack
  exact ⟨⟨chunkInit_sized _ _ _, by omega, by rw [hc]; exact hlen, by omega, rfl⟩, hc⟩

/-- What one absorbed byte does to a legal session, unless a push has no room (R173, R175): the session
stays legal, and its input is one byte longer (R151). -/
theorem absorb_legal (m : Hasher) (x : Byte) (h : m.Legal)
    (hroom : m.chunk.len = chunkLen → m.stack.length < 55) :
    (m.absorb x).Legal
      ∧ 1024 * (m.absorb x).chunk.counter.toNat + (m.absorb x).chunk.len
          = 1024 * m.chunk.counter.toNat + m.chunk.len + 1 := by
  have hr := h.ready
  by_cases hfull : m.chunk.len = chunkLen
  · have ha : m.absorb x = { m.nextChunk with chunk := absorbByte m.flags m.nextChunk.chunk x } := by
      unfold Hasher.absorb; rw [if_pos hfull]; rfl
    obtain ⟨hn, hc⟩ := hr.nextChunk (hroom hfull)
    have hl0 : m.nextChunk.chunk.len = 0 := rfl
    rw [ha]
    refine ⟨hn.absorbByte_legal x (by rw [hl0]; decide), ?_⟩
    show 1024 * (absorbByte m.flags m.nextChunk.chunk x).counter.toNat
      + (absorbByte m.flags m.nextChunk.chunk x).len = _
    rw [absorbByte_counter, absorbByte_len _ _ _ hn.sized.1, hc, hl0, hfull,
      show chunkLen = 1024 from rfl]
    omega
  · have ha : m.absorb x = { m with chunk := absorbByte m.flags m.chunk x } := by
      unfold Hasher.absorb; rw [if_neg hfull]
    have hlt : m.chunk.len < chunkLen := Nat.lt_of_le_of_ne hr.sized.len_le hfull
    rw [ha]
    refine ⟨hr.absorbByte_legal x hlt, ?_⟩
    show 1024 * (absorbByte m.flags m.chunk x).counter.toNat
      + (absorbByte m.flags m.chunk x).len = _
    rw [absorbByte_counter, absorbByte_len _ _ _ hr.sized.1]
    omega

/-- Absorbing at most a block into a legal session, where no push lacks room: the session stays legal, and
its input is as much longer as the bytes absorbed (R174, R175). -/
theorem foldl_absorb_legal (b : List Byte) (m : Hasher) (h : m.Legal) (hb : b.length ≤ 64)
    (hroom : 1024 < m.chunk.len + b.length → m.stack.length < 55) :
    (b.foldl Hasher.absorb m).Legal
      ∧ 1024 * (b.foldl Hasher.absorb m).chunk.counter.toNat + (b.foldl Hasher.absorb m).chunk.len
          = 1024 * m.chunk.counter.toNat + m.chunk.len + b.length := by
  induction b generalizing m with
  | nil => exact ⟨h, by simp⟩
  | cons x b ih =>
    simp only [List.length_cons] at hb hroom
    obtain ⟨hl, hc⟩ := absorb_legal m x h (fun hfull => hroom (by rw [hfull, show chunkLen = 1024 from rfl]; omega))
    have hroom' : 1024 < (m.absorb x).chunk.len + b.length → (m.absorb x).stack.length < 55 := by
      by_cases hfull : m.chunk.len = chunkLen
      · have : (m.absorb x).chunk.len = 1 := by
          unfold Hasher.absorb
          rw [if_pos hfull]
          show (absorbByte m.nextChunk.flags m.nextChunk.chunk x).len = 1
          rw [absorbByte_len _ _ _ (Nat.zero_le _)]
          rfl
        intro; omega
      · have ha : m.absorb x = { m with chunk := absorbByte m.flags m.chunk x } := by
          unfold Hasher.absorb; rw [if_neg hfull]
        rw [ha]
        show 1024 < (absorbByte m.flags m.chunk x).len + b.length → m.stack.length < 55
        rw [absorbByte_len _ _ _ h.1.1]
        intro; exact hroom (by omega)
    have := ih (m.absorb x) hl (by omega) hroom'
    simp only [List.foldl_cons, List.length_cons]
    exact ⟨this.1, by omega⟩

/-- `hasherUpdate` of at most a block, where no push lacks room (R174, R175). -/
theorem hasherUpdate_legal (m : Hasher) (b : List Byte) (h : m.Legal) (hb : b.length ≤ 64)
    (hroom : ¬ pushOverflows m b.length) :
    (hasherUpdate m b).Legal
      ∧ 1024 * (hasherUpdate m b).chunk.counter.toNat + (hasherUpdate m b).chunk.len
          = 1024 * m.chunk.counter.toNat + m.chunk.len + b.length := by
  rw [hasherUpdate_eq_foldl m b h.1.1 h.ready.sized.len_le]
  refine foldl_absorb_legal b m h hb (fun hlt => ?_)
  have h55 : m.stack.length ≤ 55 := h.ready.room
  have hlen : m.chunk.len ≤ 1024 := h.ready.sized.len_le
  have : ¬ (0 < b.length ∧ 1024 < m.chunk.len + b.length ∧ 55 < m.stack.length + 1) := hroom
  omega

theorem hasherUpdate_key_flags (m : Hasher) (b : List Byte) :
    (hasherUpdate m b).key = m.key ∧ (hasherUpdate m b).flags = m.flags := by
  have : ∀ (fuel : Nat) (m : Hasher) (b : List Byte),
      (hasherLoop fuel m b).key = m.key ∧ (hasherLoop fuel m b).flags = m.flags := by
    intro fuel
    induction fuel with
    | zero => intro m b; exact ⟨rfl, rfl⟩
    | succ fuel ih =>
      intro m b
      unfold hasherLoop
      split
      · exact ⟨rfl, rfl⟩
      · simp only [ih]
        constructor <;> split <;> rfl
  exact this b.length m b

@[simp] theorem hasherUpdate_key (m : Hasher) (b : List Byte) : (hasherUpdate m b).key = m.key :=
  (hasherUpdate_key_flags m b).1
@[simp] theorem hasherUpdate_flags (m : Hasher) (b : List Byte) : (hasherUpdate m b).flags = m.flags :=
  (hasherUpdate_key_flags m b).2

/-- A fresh session is legal (R208). -/
theorem freshHasher_legal (k : ChainingValue) (f : Byte) : (freshHasher k f).Legal := by
  refine ⟨⟨?_, ?_, ?_, ?_⟩, ?_, ?_, ?_, rfl⟩
  · exact Nat.zero_le _
  · exact Nat.zero_le _
  · intro h; exact absurd h (Nat.not_succ_le_zero 0)
  · show (0 : Word64).toNat < 2 ^ 55; decide
  · show 0 = popcount (0 : Word64).toNat; decide
  · exact Nat.zero_le _
  · intro h; exact absurd rfl h

/-! ### The finalizer -/

@[simp] theorem rootBytes_length (n : Node) (seek len : Nat) : (rootBytes n seek len).length = len := by
  simp [rootBytes]

/-- `finalize_bytes(0, 32)` cannot raise, and gives the digest (R204, R235). -/
theorem finalizeBytes_zero_32 (xof : MultiChunkXof) (m : Hasher) :
    finalizeBytes xof m 0 32 = .ok (digest32 m) := by
  simp [finalizeBytes, digest32]

/-- Output bytes that lie in one output block are cut from that block (R178). -/
theorem rootBytes_one_block (n : Node) (seek len : Nat) (h : seek % 64 + len ≤ 64) :
    rootBytes n seek len = ((outputBlock n (seek / 64)).drop (seek % 64)).take len := by
  apply List.ext_getElem
  · simp [rootBytes, outputBlock]; omega
  · intro j h1 h2
    have hj : j < len := by simpa [rootBytes] using h1
    have h3 : (seek + j) / 64 = seek / 64 := by omega
    have h4 : (seek + j) % 64 = seek % 64 + j := by omega
    simp only [rootBytes, List.getElem_map, List.getElem_range, streamByte, blockLen, h3, h4, byteAt]
    rw [List.getElem_take, List.getElem_drop, List.getD_eq_getElem]

/-- The digest is the first half of output block 0. -/
theorem digest32_block (m : Hasher) : digest32 m = (outputBlock (rootNode m) 0).take 32 := by
  unfold digest32
  rw [rootBytes_one_block _ 0 32 (by omega)]
  simp

end Sys2Proof.Machine
end

