-- ==== Sys2Proof/Laws/Exec.lean ====
section
/-! SUPPORT. What a command can do at all (60_exceptions.md R250, R252): every command answers a next state, and
it writes only DOUT, MHASH, the session and its mode, CHECK, ERR and BUSY. -/

namespace Sys2Proof.Machine

/-- Every field a command may write, all others as they were: the inversion of `exec`. -/
theorem exec_writes (i : Instr) (s : State) : ∃ d h m se c e, exec i s = .next
    { s with dout := d, mhash := h, mode := m, session := se, chk := c, err := e, running := none } := by
  have hr : ∀ e : Err, ∃ d h m se c e', (Host.Outcome.next (s.raise e) : Result) = .next
      { s with dout := d, mhash := h, mode := m, session := se, chk := c, err := e', running := none } :=
    fun e => ⟨s.dout, s.mhash, s.mode, s.session, s.chk, e, rfl⟩
  cases i with
  | init => exact ⟨_, _, _, _, _, _, rfl⟩
  | initKeyed => exact ⟨_, _, _, _, _, _, rfl⟩
  | initDerive => exact ⟨_, _, _, _, _, _, rfl⟩
  | deriveMaterial =>
    simp only [exec, execDeriveMaterial]
    split
    · exact hr _
    · split
      · exact hr _
      · exact ⟨_, _, _, _, _, _, rfl⟩
  | reset =>
    simp only [exec, execReset]
    split
    · exact hr _
    · split
      · exact hr _
      · exact ⟨_, _, _, _, _, _, rfl⟩
  | update len =>
    simp only [exec, execUpdate]
    split
    · exact hr _
    · split
      · exact hr _
      · split
        · exact hr _
        · exact ⟨_, _, _, _, _, _, rfl⟩
  | finalize len =>
    simp only [exec, execFinalize]
    split
    · exact hr _
    · split
      · exact hr _
      · split
        · exact hr _
        · exact ⟨_, _, _, _, _, _, rfl⟩
  | compress len flg =>
    simp only [exec, execCompress]
    split
    · exact hr _
    · exact ⟨_, _, _, _, _, _, rfl⟩
  | mineHash => exact ⟨_, _, _, _, _, _, rfl⟩
  | mineCheck => exact ⟨_, _, _, _, _, _, rfl⟩
  | mineTry => exact ⟨_, _, _, _, _, _, rfl⟩

/-- The meanings, one equation each, for proofs that run a command. -/
theorem exec_init (s : State) : exec .init s = .next (s.sessionStart iv 0x00 .default).complete := rfl
theorem exec_initKeyed (s : State) :
    exec .initKeyed s = .next (s.sessionStart s.key keyedHash .keyed).complete := rfl
theorem exec_initDerive (s : State) :
    exec .initDerive s = .next (s.sessionStart iv deriveKeyContext .deriveCtx).complete := rfl
theorem exec_mineHash (s : State) : exec .mineHash s = .next s.mineHash.complete := rfl
theorem exec_mineCheck (s : State) : exec .mineCheck s = .next s.mineCheck.complete := rfl
theorem exec_mineTry (s : State) : exec .mineTry s = .next s.mineHash.mineCheck.complete := rfl

/-- A word that does not decode raises its error and has no other effect (R94). -/
theorem runWord_error (w : Word) (s : State) (e : DecodeError) (h : decode w = .error e) :
    runWord w s = .next (s.raise (Err.ofDecode e)) := by simp [runWord, h]

/-- A word that decodes runs its command. -/
theorem runWord_ok (w : Word) (s : State) (i : Instr) (h : decode w = .ok i) :
    runWord w s = exec i s := by simp [runWord, h]

/-- Every field a command word may write, decoded or not. -/
theorem runWord_writes (w : Word) (s : State) : ∃ d h m se c e, runWord w s = .next
    { s with dout := d, mhash := h, mode := m, session := se, chk := c, err := e, running := none } := by
  match hd : decode w with
  | .ok i => rw [runWord_ok w s i hd]; exact exec_writes i s
  | .error e =>
    rw [runWord_error w s e hd]
    exact ⟨s.dout, s.mhash, s.mode, s.session, s.chk, Err.ofDecode e, rfl⟩

end Sys2Proof.Machine
end

