-- ==== Sys2Proof/Laws/PerInstr.lean ====
section
/-! SUPPORT. The per-instruction family SelectsRow: the word a command is encoded as selects that command's own
row of the opcode map (30_encoding.md R92), whatever its operand fields are. -/

namespace Sys2Proof.Laws.SelectsRow

/-- `encode i` selects a row of the opcode map whose command, built from `i`'s own fields, is `i`. -/
def Statement (i : Instr) : Prop :=
  ∃ r ∈ opTable, encode i &&& r.mask = r.pattern ∧ r.make (lenField (encode i)) (flgField (encode i)) = i

/-- Masking the encoded fields: LEN and FLG drop out where the mask is 0. -/
theorem encodeFields_mask_l (op len : Byte) :
    encodeFields op len 0 &&& 0xFFFF00FF#32 = op.setWidth 32 := by
  unfold encodeFields
  apply BitVec.eq_of_getLsbD_eq
  intro i hi
  simp only [BitVec.getLsbD_and, BitVec.getLsbD_or, BitVec.getLsbD_setWidth, BitVec.getLsbD_shiftLeft]
  interval_cases i <;> simp

theorem encodeFields_mask_lf (op len flg : Byte) :
    encodeFields op len flg &&& 0xFF0000FF#32 = op.setWidth 32 := by
  unfold encodeFields
  apply BitVec.eq_of_getLsbD_eq
  intro i hi
  simp only [BitVec.getLsbD_and, BitVec.getLsbD_or, BitVec.getLsbD_setWidth, BitVec.getLsbD_shiftLeft]
  interval_cases i <;> simp

theorem lenField_encodeFields (op len flg : Byte) : lenField (encodeFields op len flg) = len := by
  unfold encodeFields lenField
  apply BitVec.eq_of_getLsbD_eq
  intro i hi
  simp only [BitVec.getLsbD_extractLsb', BitVec.getLsbD_or, BitVec.getLsbD_setWidth, BitVec.getLsbD_shiftLeft]
  interval_cases i <;> simp

theorem flgField_encodeFields (op len flg : Byte) : flgField (encodeFields op len flg) = flg := by
  unfold encodeFields flgField
  apply BitVec.eq_of_getLsbD_eq
  intro i hi
  simp only [BitVec.getLsbD_extractLsb', BitVec.getLsbD_or, BitVec.getLsbD_setWidth, BitVec.getLsbD_shiftLeft]
  interval_cases i <;> simp

/-- A row by its place in the opcode map. -/
theorem row_mem (k : Fin 11) : opTable[k.val] ∈ opTable := List.getElem_mem _

theorem init : Statement .init := ⟨_, row_mem 0, by decide, rfl⟩
theorem initKeyed : Statement .initKeyed := ⟨_, row_mem 1, by decide, rfl⟩
theorem initDerive : Statement .initDerive := ⟨_, row_mem 2, by decide, rfl⟩
theorem deriveMaterial : Statement .deriveMaterial := ⟨_, row_mem 3, by decide, rfl⟩
theorem reset : Statement .reset := ⟨_, row_mem 4, by decide, rfl⟩
theorem update (len : Byte) : Statement (.update len) :=
  ⟨_, row_mem 5, encodeFields_mask_l 0x10 len, congrArg Instr.update (lenField_encodeFields 0x10 len 0)⟩
theorem finalize (len : Byte) : Statement (.finalize len) :=
  ⟨_, row_mem 6, encodeFields_mask_l 0x20 len, congrArg Instr.finalize (lenField_encodeFields 0x20 len 0)⟩
theorem compress (len flg : Byte) : Statement (.compress len flg) :=
  ⟨_, row_mem 7, encodeFields_mask_lf 0x30 len flg,
    congrArg₂ Instr.compress (lenField_encodeFields 0x30 len flg) (flgField_encodeFields 0x30 len flg)⟩
theorem mineHash : Statement .mineHash := ⟨_, row_mem 8, by decide, rfl⟩
theorem mineCheck : Statement .mineCheck := ⟨_, row_mem 9, by decide, rfl⟩
theorem mineTry : Statement .mineTry := ⟨_, row_mem 10, by decide, rfl⟩

end Sys2Proof.Laws.SelectsRow
end

