-- ==== Sys2Proof/Machine/Assembler.lean ====
section
/-! DEFINITION. The assembler syntax of a command (30_encoding.md R98): a mnemonic and its operand fields,
numbers decimal or 0x-prefixed hexadecimal, to the command word `OP | len << 8 | flags << 16`. -/

namespace Sys2Proof.Machine

/-- The value of a digit in base `base`, if it is one. -/
def digitValue (base : Nat) (c : Char) : Option Nat :=
  let n := c.toNat
  let v :=
    if 0x30 ≤ n ∧ n ≤ 0x39 then n - 0x30
    else if 0x61 ≤ n ∧ n ≤ 0x66 then n - 0x61 + 10
    else if 0x41 ≤ n ∧ n ≤ 0x46 then n - 0x41 + 10
    else base
  if v < base then some v else none

/-- The value of a non-empty string of digits in base `base`, after the digits read so far. -/
def digitsValue (base : Nat) : Nat → List Char → Option Nat
  | acc, [] => some acc
  | acc, c :: cs =>
    match digitValue base c with
    | none => none
    | some v => digitsValue base (acc * base + v) cs

/-- A number of R98: decimal, or hexadecimal after `0x`. -/
def parseNumber : List Char → Option Nat
  | '0' :: 'x' :: c :: cs => digitsValue 16 0 (c :: cs)
  | c :: cs => digitsValue 10 0 (c :: cs)
  | [] => none

/-- A field operand: a number that fits the 8-bit field (R90). -/
def parseField (cs : List Char) : Option Byte :=
  match parseNumber cs with
  | some n => if n < 256 then some (BitVec.ofNat 8 n) else none
  | none => none

/-- The tokens of a line: runs of characters other than spaces, a comma being a token of its own. The
first argument is the token in progress, last character first. -/
def tokens : List Char → List Char → List (List Char)
  | cur, [] => if cur = [] then [] else [cur.reverse]
  | cur, c :: cs =>
    if c = ' ' then (if cur = [] then [] else [cur.reverse]) ++ tokens [] cs
    else if c = ',' then (if cur = [] then [] else [cur.reverse]) ++ [','] :: tokens [] cs
    else tokens (c :: cur) cs

/-- Assemble a line holding one command (R98). A LEN of 65 to 255 is encodable, though illegal (R95). -/
def assemble (line : String) : Option Word :=
  match tokens [] line.toList with
  | [] => none
  | name :: operands =>
    match opTable.find? fun r => r.mnemonic.toList = name with
    | none => none
    | some r =>
      match r.cls, operands with
      | .n, [] => some (encodeFields r.op 0 0)
      | .l, [len] => (parseField len).map fun l => encodeFields r.op l 0
      | .lf, [len, [','], flg] =>
        match parseField len, parseField flg with
        | some l, some f => some (encodeFields r.op l f)
        | _, _ => none
      | _, _ => none

end Sys2Proof.Machine
end

