-- ==== Sys2Proof/Tests/Slice0.lean ====
section
/-! SUPPORT. The model's own tests. Expected results are the spec's: the table of R92, the examples of the rules,
and the vectors of 95_test_vectors.md, named in each comment. The second half holds one witness for each
statement of Certificates/Slice0/Obligations.lean that has hypotheses. -/

namespace Sys2Proof.Machine.Tests

open Sys2Proof Sys2Proof.Machine

/-! ### Helpers -/

/-- The next state of a result, if it is one. -/
def nextOf (r : Result) : Option State :=
  match r with
  | .next t => some t
  | .fault _ => none
  | .refused _ => none

/-- The value of `f` at the next state of a result. -/
def seen {α : Type} (f : State → α) (r : Result) : Option α := (nextOf r).map f

/-- The reset state in mode `m`, with a fresh session of key `iv` and that mode's flags. -/
def fresh (m : Mode) : State := { State.reset with mode := m, session := freshHasher iv m.flags }

/-- A legal session one byte short of the capacity: a full chunk, 2^55 - 1 chunks pushed, 55 entries. -/
def fullSession : Hasher where
  key := iv
  flags := 0
  chunk := ⟨iv, 0x7FFFFFFFFFFFFF, List.replicate 64 0, 15, 0⟩
  stack := List.replicate 55 iv

/-- A default-mode state at its capacity. -/
def atCapacity : State := { State.reset with mode := .default, session := fullSession }

/-- A default-mode state with one chunk pushed and one byte in the next, and SEEK = 100. -/
def twoChunks : State :=
  { State.reset with
    mode := .default, seekLo := 100
    session := ⟨iv, 0, ⟨iv, 1, [0x14], 0, 0⟩, [iv]⟩ }

/-- The reset state with command word `w` accepted and `n` cycles to pass, and `host` still to come. -/
def running (w : Word) (n : Nat) (host : List HostStmt) : State :=
  { State.reset with running := some ⟨w, n⟩, host := host }

/-! ### Well-formedness: each check refuses an ill-formed command (R95) -/

theorem test_wf_update_64 : (Instr.update 64).WellFormed := by decide
theorem test_wf_update_65 : ¬ (Instr.update 65).WellFormed := by decide
theorem test_wf_finalize_65 : ¬ (Instr.finalize 65).WellFormed := by decide
theorem test_wf_compress_65 : ¬ (Instr.compress 65 0).WellFormed := by decide

/-! ### Decoding: words written out from the fields of R90 (RSV, FLG, LEN, OP) and the table of R92 -/

theorem test_decode_init : decode 0b00000000_00000000_00000000_00000001 = .ok .init := by rfl
theorem test_decode_init_keyed : decode 0b00000000_00000000_00000000_00000010 = .ok .initKeyed := by rfl
theorem test_decode_init_derive : decode 0b00000000_00000000_00000000_00000011 = .ok .initDerive := by rfl
theorem test_decode_derive_material :
    decode 0b00000000_00000000_00000000_00000100 = .ok .deriveMaterial := by rfl
theorem test_decode_reset : decode 0b00000000_00000000_00000000_00000101 = .ok .reset := by rfl
theorem test_decode_update : decode 0b00000000_00000000_00000011_00010000 = .ok (.update 3) := by rfl
theorem test_decode_finalize : decode 0b00000000_00000000_00100000_00100000 = .ok (.finalize 32) := by rfl
theorem test_decode_compress :
    decode 0b00000000_00001011_01000000_00110000 = .ok (.compress 64 0x0B) := by rfl
theorem test_decode_mine_hash : decode 0b00000000_00000000_00000000_01000000 = .ok .mineHash := by rfl
theorem test_decode_mine_check : decode 0b00000000_00000000_00000000_01000001 = .ok .mineCheck := by rfl
theorem test_decode_mine_try : decode 0b00000000_00000000_00000000_01000010 = .ok .mineTry := by rfl

/-- ENC-1 to ENC-5, ENC-8, ENC-10. -/
theorem test_decode_illegal :
    [0x00000000, 0x00000101, 0x01000010, 0x00010110, 0x00014110, 0x00000043, 0xFF004030].map decode
      = List.replicate 7 (.error .illegalOp) := by rfl

/-- ENC-6, ENC-7, ENC-9. -/
theorem test_decode_length :
    [0x00004110, 0x00004130, 0x00004020].map decode
      = [.error .badLen, .error .badLen, .ok (.finalize 64)] := by rfl

/-- The host's view of the decoder: COMPRESS 64, 0x0B, and a word of which only the opcode byte is given. -/
theorem test_decode_table_word :
    decodeTableWord 32 0x000B4030 = some (.compress 64 0x0B) ∧ decodeTableWord 8 0x10 = some (.update 0) := by
  decide

/-- The examples of R98. -/
theorem test_encode :
    encode (.update 3) = 0x00000310 ∧ encode (.finalize 32) = 0x00002020
      ∧ encode (.compress 64 0x0B) = 0x000B4030 := by decide

/-- The same, from their text; a length that does not fit the field is no command. -/
theorem test_assemble :
    ["UPDATE 3", "FINALIZE 32", "COMPRESS 64, 0x0B", "INIT", "UPDATE 256"].map assemble
      = [some 0x00000310, some 0x00002020, some 0x000B4030, some 0x00000001, none] := by decide +kernel

/-! ### The register window (R22) -/

theorem test_window :
    [0x000, 0x00C, 0x01C, 0x03C, 0x070, 0x07C, 0x0BC, 0x0C0, 0x11C, 0x1CC, 0x1F0, 0x1FC].map regAt
      = [.id, .reserved 0, .ctrHi, .key 7, .nonce, .reserved 3, .din 15, .dout 0, .mhash 7, .hdr 35,
         .hdr 44, .reserved 6] := by decide

/-- P7, steps 2 and 3: a write while a command runs is dropped and sets WBUSY. -/
theorem test_write_while_busy :
    memWrite (Config.base + 0x010) .w32 5 (running 0x00002020 1 [])
      = .next { running 0x00002020 1 [] with wbusy := true, answer := some .done } :=
  memWrite_reg _ .seekLo 5

/-- P7, step 4: writing 0x1000 to STATUS clears WBUSY. -/
theorem test_clear_wbusy :
    memWrite (Config.base + 0x004) .w32 0x00001000 { State.reset with wbusy := true }
      = .next { State.reset with answer := some .done } :=
  memWrite_reg _ .status 0x00001000

/-! ### The compression function -/

/-- The schedule's rows follow from PERM (R123). -/
theorem test_schedule :
    let perm : Vector (Fin 16) 16 := #v[2, 6, 3, 10, 7, 0, 4, 13, 1, 11, 12, 5, 9, 14, 15, 8]
    (sched.zip sched.tail).all fun p => p.2 = Vector.ofFn fun j => p.1[perm[j]] := by decide

/-- Vector G-3. -/
theorem test_quarter_round :
    let v : Block16 := #v[1, 2, 3, 4, 0, 0, 0, 0, 0, 0, 0, 0, 0, 0, 0, 0]
    quarterRound v 0 1 2 3 5 6
      = #v[0x001000CE, 0x879C3839, 0xCE0C1C03, 0xCE001C00, 0, 0, 0, 0, 0, 0, 0, 0, 0, 0, 0, 0] := by
  decide +kernel

/-- ROUND, the rows init and round 0. -/
theorem test_round_0 :
    roundStep (initBlock iv 0 0 0x0B) (Vector.replicate 16 0) sched[0]
      = #v[0x775146DC, 0x91D99567, 0x8D7EB8E2, 0xBA28BE49, 0xBF7B53FF, 0xE7661B5D, 0x7F835244, 0x24BF2E76,
           0xE15F5DCD, 0x1AEB5F15, 0x809EAE90, 0xF32C027F, 0xE0253D07, 0x5D9F85CC, 0xAA5E2248, 0x180DAFF3] := by
  decide +kernel

/-! ### The commands -/

/-- SES-1: INIT from reset. -/
theorem test_init :
    seen (fun t => [t.statusWord, t.infoCtrLo, t.infoChunk, t.infoStack]) (exec .init State.reset)
      = some [0x00000200, 0, 0, 0] := by decide

/-- SES-2: INIT_KEYED. -/
theorem test_init_keyed :
    seen (fun t => [t.statusWord, t.infoStack]) (exec .initKeyed State.reset)
      = some [0x00000400, 0x00001000] := by decide

/-- SES-3: INIT_DERIVE. -/
theorem test_init_derive :
    seen (fun t => [t.statusWord, t.infoStack]) (exec .initDerive State.reset)
      = some [0x00000600, 0x00002000] := by decide

/-- SES-5: DERIVE_MATERIAL in mode DEFAULT is E_STATE. -/
theorem test_derive_material_mode :
    seen State.statusWord (exec .deriveMaterial (fresh .default)) = some 0x00000240 := by decide

/-- P4, step 4: the context key, after the 47 context bytes of step 2. -/
theorem test_derive_material :
    let ctx : List Word := [0x4B414C42, 0x32203345, 0x2D393130, 0x322D3231, 0x36312037, 0x3A39323A, 0x74203235,
      0x20747365, 0x74636576, 0x2073726F, 0x746E6F63, 0x00747865]
    let m : Hasher := ⟨iv, 0x20, ⟨iv, 0, (ctx.flatMap leBytes).take 47, 0, 0x20⟩, []⟩
    seen (fun t => (t.statusWord, t.infoStack, t.session.key))
        (exec .deriveMaterial { fresh .deriveCtx with session := m })
      = some (0x00000800, 0x00004000, #v[0xDF278E8E, 0xBF30917B, 0x0771ED47, 0x222EE100, 0x0E388A39, 0xC1E00FFB,
          0x20919033, 0x869A61F8]) := by
  simp only [exec, execDeriveMaterial, digest32_block]
  decide +kernel

/-- SES-6 and SES-7: RESET in DERIVE_CTX and in NONE. -/
theorem test_reset_mode :
    seen State.statusWord (exec .reset (fresh .deriveCtx)) = some 0x00000640
      ∧ seen State.statusWord (exec .reset State.reset) = some 0x00000030 := by decide

/-- KEY-1: RESET in keyed mode with 2049 bytes absorbed keeps the key and the mode. -/
theorem test_reset :
    let k : ChainingValue := Vector.replicate 8 7
    seen (fun t => ([t.statusWord, t.infoCtrLo, t.infoChunk, t.infoStack], t.session.key))
        (exec .reset { fresh .keyed with session := ⟨k, 0x10, ⟨iv, 2, [0], 0, 0x10⟩, [iv]⟩ })
      = some ([0x00000400, 0, 0, 0x00001000], k) := by decide

/-- P1, step 3: UPDATE 3 of "abc". -/
theorem test_update :
    seen (fun t => (t.statusWord, t.infoChunk, t.session.chunk.buf))
        (exec (.update 3) { fresh .default with din := (Vector.replicate 16 0).set 0 0x00636261 })
      = some (0x00000200, 0x00000003, [0x61, 0x62, 0x63]) := by decide

/-- TREE-4 and TREE-5: the byte after a full chunk pushes it. -/
theorem test_update_push :
    let s := fresh .default
    let c : Chunk := ⟨iv, 0, List.replicate 64 0, 15, 0⟩
    let full := { s with session := { s.session with chunk := c } }
    full.infoChunk = 0x00000F40
      ∧ seen (fun t => [t.statusWord, t.infoCtrLo, t.infoChunk, t.infoStack]) (exec (.update 1) full)
          = some [0x00000200, 1, 0x00000001, 0x00000001] := by decide +kernel

/-- P1, step 4: the digest of "abc". -/
theorem test_finalize_digest :
    finalizeBytes .restricted ⟨iv, 0, ⟨iv, 0, [0x61, 0x62, 0x63], 0, 0⟩, []⟩ 0 32
      = .ok ([0xACB33764, 0x33514638, 0x753BB6FF, 0xB58D3A27, 0x4658C548, 0x03DB795D, 0x6C9C35FD,
          0x859DBDD5].flatMap leBytes) := by
  rw [finalizeBytes_zero_32, digest32_block]
  exact congrArg _ (by decide +kernel)

/-- P1, step 4, its first byte alone: the other bytes of DOUT keep their value (R207). -/
theorem test_finalize_keeps :
    seen (fun t => t.dout) (exec (.finalize 1)
        { fresh .default with
          session := ⟨iv, 0, ⟨iv, 0, [0x61, 0x62, 0x63], 0, 0⟩, []⟩
          dout := Vector.replicate 16 0x99999999 })
      = some ((Vector.replicate 16 0x99999999).set 0 0x99999964) := by decide +kernel

/-- MULTI-3 and MULTI-5: under `restricted`, past byte 64 of a multi-chunk output; length 0 is not checked. -/
theorem test_finalize_range :
    finalizeBytes .restricted twoChunks.session 32 64 = .error .xofRange
      ∧ finalizeBytes .restricted twoChunks.session 100 0 = .ok [] := ⟨rfl, rfl⟩

/-- CMP-5: a counter with two different words, in mode NONE. -/
theorem test_compress_counter :
    seen (fun t => (t.statusWord, t.dout)) (exec (.compress 64 0x04)
        { State.reset with
          ctrLo := 2, ctrHi := 1
          din := Vector.ofFn fun i => BitVec.ofNat 32 (0x03020100 + 0x04040404 * i.val) })
      = some (0, #v[0xFCE54472, 0xD724F11D, 0x0F75CF22, 0x31A8E8E5, 0x4235487E, 0x813C8F9C, 0xA1CB9221, 0xA9840EDB,
          0xE765AB65, 0x6FA9296A, 0x90D74679, 0x89918CD9, 0xE7DB15F7, 0xAC2704F6, 0x66AC15F1, 0x3D5E6ADA]) := by
  decide +kernel

/-- CMP-6: DIN beyond LEN is used as it stands. -/
theorem test_compress_tail :
    seen (fun t => t.dout) (exec (.compress 3 0x0B)
        { State.reset with ccv := iv, din := (Vector.replicate 16 0xFFFFFFFF).set 0 0xFF636261 })
      = some #v[0x720C6AD0, 0x2583EB44, 0x6A023445, 0x3D1E7670, 0xEC7E0FB3, 0x207714FD, 0xB7C446AB, 0x8A9AD40B,
          0xE5FCA718, 0x65D35E7A, 0xD428FDFB, 0xE5E0AC98, 0xA0A5189D, 0xD1462666, 0x3115B739, 0x08C45824] := by
  decide +kernel

/-- The header of MINE-1: byte i is i. -/
def mineHdr : Vector Word 45 := Vector.ofFn fun i => BitVec.ofNat 32 (0x03020100 + 0x04040404 * i.val)

/-- MINE-1: the working copy's bytes 136 to 147. -/
theorem test_work_header :
    ((workHeader { State.reset with hdr := mineHdr, nonce := 0x01020304 }).drop 136).take 12
      = [0x88, 0x89, 0x8A, 0x8B, 0x04, 0x03, 0x02, 0x01, 0x90, 0x91, 0x92, 0x93] := by decide +kernel

/-- MINE-1: the digest. -/
theorem test_mine_hash :
    seen (fun t => (t.statusWord, t.mhash))
        (exec .mineHash { State.reset with hdr := mineHdr, nonce := 0x01020304 })
      = some (0, #v[0xCBFEA8D8, 0x56C9A3AE, 0xB87D80DC, 0x09149E13, 0x0C4C082A, 0xE70D6BA9, 0xB34C44AC,
          0x7D6ADDAD]) := by
  simp only [exec, execMineHash, State.mineHash, oneshotHash, digest32_block]
  decide +kernel

/-- DIFF-4: the first byte decides, not the first word. -/
theorem test_mine_check_first_byte :
    seen State.statusWord (exec .mineCheck
        { State.reset with
          mhash := #v[1, 0, 0, 0, 0, 0, 0, 0]
          target := (Vector.replicate 8 0xFFFFFFFF).set 0 0xFFFFFF00 }) = some 0 := by decide

/-- DIFF-1 and DIFF-2: less than, and equal. -/
theorem test_mine_check_passes :
    seen State.statusWord (exec .mineCheck { State.reset with target := #v[0, 0, 0, 0, 0, 0, 0, 0x01000000] })
        = some 0x00000100
      ∧ seen State.statusWord (exec .mineCheck State.reset) = some 0x00000100 := by decide

/-- P3, steps 5 and 6: the comparison sees the new MHASH, not the old one. -/
theorem test_mine_try :
    seen (fun t => (t.statusWord, t.mhash)) (exec .mineTry
        { State.reset with
          hdr := mineHdr, nonce := 0x01020305, mhash := Vector.replicate 8 0xFFFFFFFF
          target := #v[0xCBFEA8D8, 0x56C9A3AE, 0xB87D80DC, 0x09149E13, 0x0C4C082A, 0xE70D6BA9, 0xB34C44AC,
            0x7D6ADDAD] })
      = some (0x00000100, #v[0x3D1A801C, 0x0DF9508C, 0x24089198, 0xB8D57E4D, 0x8148F3F4, 0x6ECA4209, 0x44DABC42,
          0x6E758828]) := by
  simp only [exec, execMineTry, State.mineHash, oneshotHash, digest32_block]
  decide +kernel

/-! ### The step, and host programs -/

/-- P6, step 1: UPDATE 1 as the first command after reset. -/
theorem test_step_runs_word :
    seen State.statusWord (step (State.reset.withFetchWord 32 0x00000110)) = some 0x00000030 := by decide

/-- P6, step 2: a zero word is E_ILLEGAL_OP. -/
theorem test_step_illegal_word :
    seen State.statusWord (step (State.reset.withFetchWord 32 0)) = some 0x00000010 := by decide

/-- LOAD_DIN of "abc" writes DIN0 alone (R101), and UPDATE's word is that of R98. -/
theorem test_host_update :
    hashBytes [0x61, 0x62, 0x63]
      = [.write (Config.base + 0x080) .w32 0x00636261, .write (Config.base + 0x008) .w32 0x00000310, .wait] := by
  rfl

/-! ### Witnesses: a state and operands that meet each statement's hypotheses -/

theorem wit_DecodeOfEncode :
    (Instr.update 64).WellFormed ∧ (Instr.finalize 0).WellFormed ∧ (Instr.compress 64 0xFF).WellFormed
      ∧ Instr.mineTry.WellFormed := by decide

theorem wit_EncodeOfDecode : decode 0x00004010 = .ok (.update 64) ∧ decode 0x00FF4030 = .ok (.compress 64 0xFF) :=
  ⟨rfl, rfl⟩

theorem wit_DecodeChecksInOrder :
    (running 0 0 []).running = some ⟨0, 0⟩ ∧ decode 0 = .error .illegalOp
      ∧ (running 0x00004110 0 []).running = some ⟨0x00004110, 0⟩ ∧ decode 0x00004110 = .error .badLen :=
  ⟨rfl, rfl, rfl, rfl⟩

theorem wit_OpcodeRowsDisjoint :
    ∃ r ∈ opTable, (0x000B4030 : Word) &&& r.mask = r.pattern := ⟨opTable[7], List.getElem_mem _, by decide⟩

theorem wit_StepRunsDecodedCommand :
    (running 1 0 []).running = some ⟨1, 0⟩ ∧ decode 1 = .ok .init := ⟨rfl, rfl⟩

theorem wit_FailingCommandOnlyReports : seen State.err (runWord 0x00000110 State.reset) = some .noSession := by
  decide

/-- Both clauses: a word that completes, and one that fails. -/
theorem wit_LowestErrorCodeReported :
    seen State.err (runWord 0x00000001 State.reset) = some .ok
      ∧ seen State.err (runWord 0x00000110 atCapacity) = some .capacity
      ∧ State.reset.mode = .none ∧ twoChunks.mode ≠ .none ∧ twoChunks.session.stack ≠ []
      ∧ pairNat twoChunks.seekHi twoChunks.seekLo = 100 := by decide

theorem wit_LongLengthsRaiseBadLen : 64 < (65 : Byte).toNat ∧ 64 < (255 : Byte).toNat := by decide

theorem wit_InitCommandsStartSessions : (fresh .deriveCtx).mode = .deriveCtx := rfl

theorem wit_DeriveMaterialTakesContextKey : (fresh .deriveCtx).mode = .deriveCtx := rfl

theorem wit_ResetKeepsKeyAndMode :
    (fresh .keyed).mode ≠ .none ∧ (fresh .keyed).mode ≠ .deriveCtx
      ∧ (fresh .keyed).session.flags = (fresh .keyed).mode.flags := by decide

theorem wit_ResetAfterStartChangesNothing :
    (∃ t, exec .init State.reset = .next t) ∧ (∃ t, exec .initKeyed State.reset = .next t)
      ∧ ∃ t, exec .deriveMaterial (fresh .deriveCtx) = .next t ∧ t.err = .ok :=
  ⟨⟨_, rfl⟩, ⟨_, rfl⟩, ⟨_, rfl, rfl⟩⟩

theorem wit_SessionCommandsNeedTheirMode :
    State.reset.mode = .none ∧ (64 : Byte).toNat ≤ 64 ∧ (fresh .keyed).mode ≠ .none
      ∧ (fresh .keyed).mode ≠ .deriveCtx ∧ (fresh .deriveCtx).mode = .deriveCtx := by decide

/-- The first clause at a chunk with just room (961 + 64 > 1024 pushes, the stack being short of 55), the
second at the smallest length that overflows. -/
theorem wit_UpdateAbsorbsDin :
    (64 : Byte).toNat ≤ 64 ∧ twoChunks.mode ≠ .none
      ∧ (1024 < twoChunks.session.chunk.len + (64 : Byte).toNat → twoChunks.session.stack.length < 55)
      ∧ atCapacity.mode ≠ .none ∧ 0 < (1 : Byte).toNat
      ∧ 1024 < atCapacity.session.chunk.len + (1 : Byte).toNat ∧ 55 ≤ atCapacity.session.stack.length := by
  decide

theorem wit_UpdateZeroChangesNothing : (fresh .default).mode ≠ .none := by decide

theorem wit_UpdateCountsItsBytes :
    (fresh .default).Inv ∧ seen State.err (exec (.update 64) (fresh .default)) = some .ok := by decide

/-- A legal session, and two completing sequences of UPDATEs, 2 + 1 bytes and 3 bytes of the same string. -/
theorem wit_SplitIndependence :
    let z : Vector Word 16 := Vector.replicate 16 0
    (fresh .default).Inv ∧ (∃ t, Updates (fresh .default) [(z, 2), (z, 1)] t)
      ∧ (∃ t, Updates (fresh .default) [(z, 3)] t)
      ∧ updateBytes z 2 ++ updateBytes z 1 = updateBytes z 3 :=
  ⟨by decide, ⟨_, _, rfl, rfl, _, rfl, rfl, rfl⟩, ⟨_, _, rfl, rfl, rfl⟩, by decide⟩

/-- The first clause at the edge of the root block. The second clause's hypothesis depends on
MULTI_CHUNK_XOF, which is open; under `restricted` it holds here. -/
theorem wit_FinalizeWritesOutput :
    (64 : Byte).toNat ≤ 64 ∧ twoChunks.mode ≠ .none
      ∧ (∃ out, finalizeBytes Config.multiChunkXof (fresh .default).session 0 64 = .ok out)
      ∧ (Config.multiChunkXof = .restricted →
          finalizeBytes Config.multiChunkXof twoChunks.session (pairNat twoChunks.seekHi twoChunks.seekLo) 64
            = .error .xofRange) := by
  refine ⟨by decide, by decide, ⟨rootBytes (rootNode (fresh .default).session) 0 64, ?_⟩, ?_⟩
  · simp [finalizeBytes, fresh, freshHasher]
  · intro h
    rw [h]
    rfl

/-- Each of the three cases: one chunk at any seek, length 0, and a request that ends at byte 64. -/
theorem wit_FinalizeCompletes :
    (fresh .default).mode ≠ .none ∧ (fresh .default).session.stack = []
      ∧ twoChunks.mode ≠ .none ∧ (0 : Byte).toNat = 0
      ∧ pairNat 0 32 + (32 : Byte).toNat ≤ 64 ∧ (32 : Byte).toNat ≤ 64 := by decide

theorem wit_MultiChunkRangeRule :
    (∃ out, finalizeBytes .restricted twoChunks.session 32 32 = .ok out)
      ∧ finalizeBytes .restricted twoChunks.session 32 33 = .error .xofRange
      ∧ twoChunks.session.stack ≠ [] ∧ twoChunks.mode ≠ .none ∧ (64 : Byte).toNat ≤ 64 :=
  ⟨⟨_, rfl⟩, rfl, by decide, by decide, by decide⟩

/-- In every state FINALIZE answers a next state. -/
theorem wit_FinalizeIsRepeatable (s : State) (len : Byte) : ∃ t, exec (.finalize len) s = .next t := by
  obtain ⟨_, _, _, _, _, _, h⟩ := exec_writes (.finalize len) s
  exact ⟨_, h⟩

theorem wit_SeekConsistency :
    (∃ a, finalizeBytes .restricted twoChunks.session 32 32 = .ok a)
      ∧ ∃ b, finalizeBytes .restricted twoChunks.session 0 (32 + 32) = .ok b := ⟨⟨_, rfl⟩, ⟨_, rfl⟩⟩

theorem wit_CompressWritesWideOutput : (64 : Byte).toNat ≤ 64 ∧ (0 : Byte).toNat ≤ 64 := by decide

/-- Four different words and one outside them, a byte of a word, and the schedule's first and last rows. -/
theorem wit_CompressionStateAndRounds :
    [(3 : Fin 16), 4, 9, 14].Nodup ∧ (15 : Fin 16) ∉ [(3 : Fin 16), 4, 9, 14] ∧ 3 < 4
      ∧ sched[0]? = some sched[0] ∧ sched[5]? = some sched[5] ∧ sched[6]? = some sched[6] := by decide

/-- The hypothesis is met by a state and itself, whatever the message. -/
theorem wit_RoundsLoseNothing (m v : Block16) : sevenRounds v m = sevenRounds v m := rfl

theorem wit_ChunkBlockFlags : 1 ≤ (zeros 1).length ∧ (zeros 1024).length ≤ 1024 := by decide +kernel

theorem wit_EmptyChunkNode : (chunkInit iv 0 0).len = 0 := rfl

theorem wit_CanonicalTree : 1024 < (zeros 1025).length ∧ (zeros 1025).length ≤ 2 ^ 65 := by
  decide +kernel

theorem wit_NonceInjection : ({ State.reset with nonce := 0x01020304 } : State).nonce = 0x01020304 := rfl

theorem wit_OneShotClosedForm : (workHeader State.reset).length = 180 := by decide +kernel

/-- Two strings that differ at their last byte only. -/
theorem wit_MeetsIsBigEndianOrder :
    (zeros 32).length = 32 ∧ (zeros 31 ++ [0x01]).length = 32 := by decide

/-- Two states that differ in HDR35 and in their session. -/
theorem wit_MiningIgnoresSession :
    let s := { State.reset with hdr := (Vector.replicate 45 0).set 35 7 }
    let s' := fresh .keyed
    (∀ i : Fin 45, i ≠ 35 → s.hdr[i] = s'.hdr[i]) ∧ s.nonce = s'.nonce ∧ s.target = s'.target ∧ s.hdr ≠ s'.hdr := by
  decide

theorem wit_NoCommandWritesOperands : ∃ t, runWord 1 State.reset = .next t := ⟨_, rfl⟩

theorem wit_CheckChangedOnlyByMining :
    seen (fun t => t.chk) (runWord 0x00000041 State.reset) = some true ∧ State.reset.chk = false := by decide

/-- A well-formed command, and a step from a session back to NONE. -/
theorem wit_ModeTransitionTable :
    (Instr.update 64).WellFormed
      ∧ seen State.mode (step { fresh .keyed with host := [.resetInput] }) = some .none
      ∧ (fresh .keyed).mode ≠ .none := by decide

/-- The invariant at a session at its capacity, and a step from it. -/
theorem wit_StepKeepsLegal :
    atCapacity.Inv ∧ seen State.err (step (atCapacity.withFetchWord 32 0x00000110)) = some .capacity := by decide

theorem wit_WaitEnds :
    (running 1 2 [.wait, .idle]).running = some ⟨1, 2⟩
      ∧ (running 1 2 [.wait, .idle]).host = .wait :: [.idle] := ⟨rfl, rfl⟩

theorem wit_OpenResetValuesUnobservable : State.reset.mode = .none := rfl

/-- Two sessions that differ in the key alone. -/
theorem wit_HiddenStateNotReadable :
    let s := fresh .default
    let m := { s.session with key := Vector.replicate 8 0 }
    m.chunk.counter = s.session.chunk.counter ∧ m.chunk.buf.length = s.session.chunk.buf.length
      ∧ m.chunk.blocks = s.session.chunk.blocks ∧ m.stack.length = s.session.stack.length
      ∧ m.flags = s.session.flags ∧ m ≠ s.session := by decide

/-- The map's first and last rows. -/
theorem wit_IdleReadsAnswerRegisters :
    State.reset.busy = false ∧ ⟨0x000, .id, false⟩ ∈ windowMap ∧ ⟨0x1FC, .reserved 6, false⟩ ∈ windowMap := by
  decide

/-- An RW row and a read-only one. -/
theorem wit_IdleWritesUpdateOneRegister :
    State.reset.busy = false ∧ ⟨0x1F0, .hdr 44, true⟩ ∈ windowMap ∧ RegName.hdr 44 ≠ .cmd ∧ RegName.hdr 44 ≠ .status
      ∧ ⟨0x0FC, .dout 15, false⟩ ∈ windowMap ∧ RegName.dout 15 ≠ .cmd ∧ RegName.dout 15 ≠ .status := by decide

theorem wit_CmdWriteStartsCommand : State.reset.busy = false ∧ (running 1 0 []).busy = true := ⟨rfl, rfl⟩

theorem wit_StatusFieldsAndClear : State.reset.busy = false := rfl

theorem wit_WritesWhileBusyAreDropped : (running 1 0 []).busy = true ∧ 0x1FC < 512 ∧ 0x1FC % 4 = 0 := by decide

theorem wit_ReadsWhileBusy :
    (running 1 0 []).busy = true ∧ 8 < 512 ∧ 8 % 4 = 0 ∧ 8 ≠ 0 ∧ 8 ≠ 4 := by decide

/-- Both ways to a bus error: an 8-bit access at offset 0, and a 32-bit one at offset 511. -/
theorem wit_BusErrorsChangeNothing :
    (0 < 512 ∧ AccessWidth.w8 ≠ .w32) ∧ 511 < 512 ∧ 511 % 4 ≠ 0 := by decide

theorem wit_OutsideWindowStops : Config.base + 512 ≤ Config.base + 512 := Nat.le_refl _

/-- A reset while a command still has a cycle to pass. -/
theorem wit_ResetInputRestoresReset :
    (running 1 1 [.resetInput]).host = .resetInput :: []
      ∧ ∀ w, (running 1 1 [.resetInput]).running ≠ some ⟨w, 0⟩ :=
  ⟨rfl, fun _ h => by simp [running] at h⟩

theorem wit_IdleMachineWaits : State.reset.running = none ∧ State.reset.host = [] := ⟨rfl, rfl⟩

theorem wit_OperandsStableWhileBusy :
    (running 1 1 []).running = some ⟨1, 0 + 1⟩ ∧ (running 1 1 []).host.head? ≠ some .resetInput
      ∧ step (running 1 1 []) = .next (running 1 0 []) := ⟨rfl, by decide, rfl⟩

theorem wit_InfoRegistersShowSession : atCapacity.Inv := by decide

/-- Two pieces, a whole one and a shorter last one; and the longest string LOAD_DIN takes. -/
theorem wit_HashBytesCoversInput :
    (pieces 65 (zeros 65)).map List.length = [64, 1] ∧ (zeros 64).length ≤ 64 := by decide

end Sys2Proof.Machine.Tests
end

section
/-! SUPPORT. The obligations about CMD, STATUS and the INFO registers (10_state.md R24, R25, R30 to R32), and
the laws they need: what a taken write does, the bits of the status word, the values of the INFO words. -/

namespace Sys2Proof.Machine

/-! ### What a taken write does -/

/-- A write taken while BUSY = 1 is dropped, and WBUSY tells so (R284). -/
theorem writeAt_of_busy (s : State) (off : Nat) (v : Word) (h : s.busy = true) :
    writeAt s off v = { s with wbusy := true } := if_pos h

theorem writeAt_of_idle (s : State) (off : Nat) (v : Word) (h : s.busy = false) :
    writeAt s off v = writeIdle s off v := if_neg (by simp [h])

theorem memWrite_reg_of_busy (s : State) (r : RegName) (v : Word) (h : s.busy = true) :
    memWrite (Config.base + r.offset) .w32 v s
      = .next { s with wbusy := true, answer := some .done } := by
  rw [memWrite_reg, writeAt_of_busy s r.offset v h]
  rfl

theorem memWrite_reg_of_idle (s : State) (r : RegName) (v : Word) (h : s.busy = false) :
    memWrite (Config.base + r.offset) .w32 v s
      = .next ((writeIdle s r.offset v).answerWith .done) := by
  rw [memWrite_reg, writeAt_of_idle s r.offset v h]

/-- A write of CMD taken while idle starts a command (R25). -/
theorem writeIdle_cmd (s : State) (v : Word) : writeIdle s RegName.cmd.offset v = s.accept v := rfl

/-- A write of STATUS taken while idle keeps WBUSY unless bit 12 of the written value is 1 (R24). -/
theorem writeIdle_status (s : State) (v : Word) :
    writeIdle s RegName.status.offset v = { s with wbusy := s.wbusy && !v.getLsbD 12 } := by
  show (if v.getLsbD 12 then { s with wbusy := false } else s) = _
  cases v.getLsbD 12 <;> simp

/-! ### STATUS -/

/-- Bit `i` of the status word, by the field it lies in (R24). -/
theorem statusWord_getLsbD (s : State) (i : Nat) :
    s.statusWord.getLsbD i =
      if i = 0 then s.busy
      else if i < 4 then false
      else if i < 8 then s.err.code.getLsbD (i - 4)
      else if i = 8 then s.chk
      else if i < 12 then s.mode.code.getLsbD (i - 9)
      else if i = 12 then s.wbusy
      else false := by
  simp only [State.statusWord, BitVec.getLsbD_or, BitVec.getLsbD_shiftLeft, BitVec.getLsbD_setWidth,
    BitVec.getLsbD_ofBool]
  -- a case for each field; in it the other fields' shifted copies read 0
  split_ifs <;> grind

/-- The field of `n` bits at bit `k` is `f` when each of its bits reads as `f`'s. -/
theorem statusWord_extractLsb' (s : State) (k n : Nat) (f : BitVec n)
    (h : ∀ i < n, s.statusWord.getLsbD (k + i) = f.getLsbD i) : s.statusWord.extractLsb' k n = f := by
  apply BitVec.eq_of_getLsbD_eq
  intro i hi
  simp [hi, h]

theorem statusWord_busy (s : State) : s.statusWord.getLsbD 0 = s.busy := by
  rw [statusWord_getLsbD]; rfl

theorem statusWord_chk (s : State) : s.statusWord.getLsbD 8 = s.chk := by
  rw [statusWord_getLsbD]; rfl

theorem statusWord_wbusy (s : State) : s.statusWord.getLsbD 12 = s.wbusy := by
  rw [statusWord_getLsbD]; rfl

theorem statusWord_err (s : State) : s.statusWord.extractLsb' 4 4 = s.err.code :=
  statusWord_extractLsb' s 4 4 _ fun i hi => by
    rw [statusWord_getLsbD, if_neg (by omega), if_neg (by omega), if_pos (by omega),
      Nat.add_sub_cancel_left]

theorem statusWord_mode (s : State) : s.statusWord.extractLsb' 9 3 = s.mode.code :=
  statusWord_extractLsb' s 9 3 _ fun i hi => by
    rw [statusWord_getLsbD, if_neg (by omega), if_neg (by omega), if_neg (by omega),
      if_neg (by omega), if_pos (by omega), Nat.add_sub_cancel_left]

theorem statusWord_reserved_low (s : State) : s.statusWord.extractLsb' 1 3 = 0#3 :=
  statusWord_extractLsb' s 1 3 _ fun i hi => by
    rw [statusWord_getLsbD, if_neg (by omega), if_pos (by omega), BitVec.getLsbD_zero]

theorem statusWord_reserved_high (s : State) : s.statusWord.extractLsb' 13 19 = 0#19 :=
  statusWord_extractLsb' s 13 19 _ fun i hi => by
    rw [statusWord_getLsbD, if_neg (by omega), if_neg (by omega), if_neg (by omega),
      if_neg (by omega), if_neg (by omega), if_neg (by omega), BitVec.getLsbD_zero]

theorem Err.code_lt (e : Err) : e.code.toNat < 7 := by cases e <;> decide

theorem Mode.code_lt (m : Mode) : m.code.toNat < 5 := by cases m <;> decide

/-! ### The INFO registers -/

/-- A word with `x` in its low byte and `y` from bit 8 on, as INFO_CHUNK and INFO_STACK are laid out
(R31, R32). -/
theorem toNat_lowByte_or_shifted {a b : Nat} (x : BitVec a) (y : BitVec b) (ha : a ≤ 8) (hb : b ≤ 24) :
    (x.setWidth 32 ||| y.setWidth 32 <<< 8).toNat = x.toNat + 256 * y.toNat := by
  have hx : x.toNat < 2 ^ 8 := x.isLt.trans_le (Nat.pow_le_pow_right (by decide) ha)
  have hy : y.toNat < 2 ^ 24 := y.isLt.trans_le (Nat.pow_le_pow_right (by decide) hb)
  have hlow : (x.setWidth 32).toNat = x.toNat := by
    rw [BitVec.toNat_setWidth, Nat.mod_eq_of_lt (by omega)]
  have hhigh : (y.setWidth 32 <<< 8).toNat = 2 ^ 8 * y.toNat := by
    rw [BitVec.toNat_shiftLeft, BitVec.toNat_setWidth, Nat.shiftLeft_eq, Nat.mod_eq_of_lt (b := 2 ^ 32) (by omega),
      Nat.mod_eq_of_lt (by omega), Nat.mul_comm]
  rw [BitVec.toNat_or, hlow, hhigh, Nat.or_comm, ← Nat.two_pow_add_eq_or_of_lt hx, Nat.add_comm]

/-- The counter's halves (R30). -/
theorem pairNat_infoCtr (s : State) :
    pairNat s.infoCtrHi s.infoCtrLo = s.session.chunk.counter.toNat := by
  have hlt := s.session.chunk.counter.isLt
  simp only [pairNat, State.infoCtrHi, State.infoCtrLo, BitVec.extractLsb'_toNat,
    Nat.shiftRight_eq_div_pow]
  omega

/-- INFO_CHUNK when the buffer and the blocks are within their bounds (R31, R47). -/
theorem infoChunk_toNat (s : State) (hbuf : s.session.chunk.buf.length ≤ 64)
    (hblocks : s.session.chunk.blocks ≤ 15) :
    s.infoChunk.toNat = s.session.chunk.buf.length + 256 * s.session.chunk.blocks := by
  rw [State.infoChunk, toNat_lowByte_or_shifted _ _ (by decide) (by decide),
    BitVec.toNat_ofNat, BitVec.toNat_ofNat, Nat.mod_eq_of_lt (by omega), Nat.mod_eq_of_lt (by omega)]

/-- The chunk's length, read off INFO_CHUNK's two fields (R31). -/
theorem chunk_len_eq_of_infoChunk (s : State) (hbuf : s.session.chunk.buf.length ≤ 64)
    (hblocks : s.session.chunk.blocks ≤ 15) :
    s.session.chunk.len = 64 * (s.infoChunk.toNat / 256) + s.infoChunk.toNat % 256 := by
  rw [infoChunk_toNat s hbuf hblocks, Chunk.len, blockLen]
  omega

/-- INFO_STACK when the stack is within its capacity (R32, R45). -/
theorem infoStack_toNat (s : State) (hstack : s.session.stack.length ≤ 55) :
    s.infoStack.toNat = s.session.stack.length + 256 * s.session.flags.toNat := by
  rw [State.infoStack, toNat_lowByte_or_shifted _ _ (by decide) (by decide),
    BitVec.toNat_ofNat, Nat.mod_eq_of_lt (by omega)]

/-! ### The obligations -/

/-- Settles O50: a write of CMD by what BUSY says. -/
theorem cmdWriteStartsCommand : Obligations.CmdWriteStartsCommand := by
  refine fun s v => ⟨fun hidle => ⟨Config.latency v s, ?_⟩, memWrite_reg_of_busy s .cmd v, rfl⟩
  have h := memWrite_reg_of_idle s .cmd v hidle
  rw [writeIdle_cmd] at h
  exact h

/-- Settles O51: the fields are read off the status word's bits, and a write is the idle write of STATUS. -/
theorem statusFieldsAndClear : Obligations.StatusFieldsAndClear := by
  refine ⟨by decide, rfl, rfl, rfl, rfl, rfl, rfl, rfl, rfl, rfl, rfl, rfl, rfl, fun s => ?_⟩
  refine ⟨statusWord_busy s, statusWord_reserved_low s, statusWord_err s, s.err.code_lt, statusWord_chk s,
    statusWord_mode s, s.mode.code_lt, statusWord_wbusy s, statusWord_reserved_high s, fun v hidle => ?_⟩
  have h := memWrite_reg_of_idle s .status v hidle
  rw [writeIdle_status] at h
  exact h

/-- Settles O59: the bounds of a legal session keep each INFO field within its width, so the words read as the
numbers they show. -/
theorem infoRegistersShowSession : Obligations.InfoRegistersShowSession := by
  refine ⟨fun s hinv => ?_, by decide⟩
  obtain ⟨⟨⟨hbuf, hblocks, -⟩, -, hstack, -⟩, -⟩ := hinv
  exact ⟨pairNat_infoCtr s, infoChunk_toNat s hbuf hblocks, chunk_len_eq_of_infoChunk s hbuf hblocks,
    infoStack_toNat s hstack⟩

end Sys2Proof.Machine
end

section
/-! SUPPORT. The obligation about the decoder's checks (30_encoding.md R94), and the laws it needs: the fields of
a command word as numbers, what a row of the opcode map is, and `decode` for each answer of `rowOf`. -/

namespace Sys2Proof

/-! ### The fields as numbers (R90) -/

theorem opField_toNat (w : Word) : (opField w).toNat = w.toNat % 256 := by
  simp [opField]

theorem lenField_toNat (w : Word) : (lenField w).toNat = w.toNat / 256 % 256 := by
  simp [lenField, Nat.shiftRight_eq_div_pow]

theorem flgField_toNat (w : Word) : (flgField w).toNat = w.toNat / 65536 % 256 := by
  simp [flgField, Nat.shiftRight_eq_div_pow]

/-- RSV is the top byte of the word, so no remainder is taken. -/
theorem rsvField_toNat (w : Word) : (rsvField w).toNat = w.toNat / 16777216 := by
  have hw := w.isLt
  simp only [rsvField, BitVec.extractLsb'_toNat, Nat.shiftRight_eq_div_pow]
  omega

theorem lenField_eq_ofNat (w : Word) : lenField w = BitVec.ofNat 8 (w.toNat / 256 % 256) := by
  rw [← lenField_toNat, BitVec.ofNat_toNat, BitVec.setWidth_eq]

theorem flgField_eq_ofNat (w : Word) : flgField w = BitVec.ofNat 8 (w.toNat / 65536 % 256) := by
  rw [← flgField_toNat, BitVec.ofNat_toNat, BitVec.setWidth_eq]

/-- A field is 0 as a byte when it is 0 as a number. -/
theorem byte_ne_zero_iff (b : Byte) : b ≠ 0 ↔ b.toNat ≠ 0 := BitVec.toNat_ne_iff_ne.symm

/-! ### The rows of the opcode map (R92, R93) -/

/-- The opcodes of class N, without operand fields (R93). -/
def opcodesN : List Nat := [0x01, 0x02, 0x03, 0x04, 0x05, 0x40, 0x41, 0x42]
/-- The opcodes of class L, with a length (R93). -/
def opcodesL : List Nat := [0x10, 0x20]
/-- The opcodes of class LF, with a length and flags (R93). -/
def opcodesLF : List Nat := [0x30]

/-- The command of an assigned opcode with its operand fields (R92). -/
def commandOf (op : Nat) (len flg : Byte) : Instr :=
  if op = 0x01 then .init else if op = 0x02 then .initKeyed else if op = 0x03 then .initDerive
  else if op = 0x04 then .deriveMaterial else if op = 0x05 then .reset
  else if op = 0x10 then .update len
  else if op = 0x20 then .finalize len
  else if op = 0x30 then .compress len flg
  else if op = 0x40 then .mineHash else if op = 0x41 then .mineCheck else .mineTry

theorem opTable_cls_n : ∀ r ∈ opTable, (r.cls = .n ↔ r.op.toNat ∈ opcodesN) := by decide

theorem opTable_cls_l : ∀ r ∈ opTable, (r.cls = .l ↔ r.op.toNat ∈ opcodesL) := by decide

/-- The rows with a length operand (R95). -/
theorem opTable_cls_ne_n : ∀ r ∈ opTable, (r.cls ≠ .n ↔ r.op.toNat ∈ opcodesL ++ opcodesLF) := by decide

theorem opTable_op_mem : ∀ r ∈ opTable, r.op.toNat ∈ opcodesN ++ opcodesL ++ opcodesLF := by decide

theorem exists_row_of_mem : ∀ op ∈ opcodesN ++ opcodesL ++ opcodesLF, ∃ r ∈ opTable, r.op.toNat = op := by
  decide

theorem opTable_make (len flg : Byte) : ∀ r ∈ opTable, r.make len flg = commandOf r.op.toNat len flg := by
  simp [opTable, commandOf]

/-! ### Looking up a row, and decoding by what it finds (R94) -/

theorem rowOf_eq_some {op : Byte} {r : OpRow} (h : rowOf op = some r) : r ∈ opTable ∧ r.op = op :=
  ⟨List.mem_of_find?_eq_some h, by simpa using List.find?_some h⟩

/-- No row is found exactly for the unassigned opcodes. -/
theorem rowOf_eq_none_iff (op : Byte) :
    rowOf op = none ↔ op.toNat ∉ opcodesN ++ opcodesL ++ opcodesLF := by
  simp only [rowOf, List.find?_eq_none, decide_eq_true_eq]
  constructor
  · intro h hop
    obtain ⟨r, hr, hrop⟩ := exists_row_of_mem op.toNat hop
    exact h r hr (BitVec.eq_of_toNat_eq hrop)
  · rintro h r hr rfl
    exact h (opTable_op_mem r hr)

theorem decode_of_rsv (w : Word) (h : rsvField w ≠ 0) : decode w = .error .illegalOp := if_pos h

theorem decode_of_rowOf_none (w : Word) (h : rowOf (opField w) = none) : decode w = .error .illegalOp := by
  simp [decode, h]

theorem decode_of_rowOf_some (w : Word) (r : OpRow) (hrsv : rsvField w = 0) (h : rowOf (opField w) = some r) :
    decode w =
      if r.cls = .n ∧ (lenField w ≠ 0 ∨ flgField w ≠ 0) then .error .illegalOp
      else if r.cls = .l ∧ flgField w ≠ 0 then .error .illegalOp
      else if r.cls ≠ .n ∧ maxLen < (lenField w).toNat then .error .badLen
      else .ok (r.make (lenField w) (flgField w)) := by
  simp [decode, hrsv, h]

/-- The five checks of R94 in its order, by the opcode's number and the lists of opcodes of each class. -/
theorem decode_eq_checks (w : Word) :
    decode w =
      if (rsvField w).toNat ≠ 0 then .error .illegalOp
      else if (opField w).toNat ∉ opcodesN ++ opcodesL ++ opcodesLF then .error .illegalOp
      else if (opField w).toNat ∈ opcodesN ∧ ((lenField w).toNat ≠ 0 ∨ (flgField w).toNat ≠ 0) then
        .error .illegalOp
      else if (opField w).toNat ∈ opcodesL ∧ (flgField w).toNat ≠ 0 then .error .illegalOp
      else if (opField w).toNat ∈ opcodesL ++ opcodesLF ∧ 64 < (lenField w).toNat then .error .badLen
      else .ok (commandOf (opField w).toNat (lenField w) (flgField w)) := by
  simp only [← byte_ne_zero_iff, ← rowOf_eq_none_iff]
  by_cases hrsv : rsvField w = 0
  · rw [if_neg (not_not_intro hrsv)]
    cases hrow : rowOf (opField w) with
    | none => rw [decode_of_rowOf_none w hrow, if_pos rfl]
    | some r =>
      obtain ⟨hr, hop⟩ := rowOf_eq_some hrow
      rw [decode_of_rowOf_some w r hrsv hrow, if_neg (Option.some_ne_none r), ← hop]
      simp only [opTable_cls_n r hr, opTable_cls_l r hr, opTable_cls_ne_n r hr, opTable_make _ _ r hr]
  · rw [decode_of_rsv w hrsv, if_pos hrsv]

end Sys2Proof

namespace Sys2Proof.Machine

/-- The step at a due command word runs that word (R286). -/
theorem step_of_due (s : State) (w : Word) (h : s.running = some ⟨w, 0⟩) : step s = runWord w s := by
  simp [step, cycle, h]

/-- A due word that does not decode raises its error and has no other effect (R94). -/
theorem step_of_decode_error (s : State) (w : Word) (e : DecodeError) (h : s.running = some ⟨w, 0⟩)
    (hd : decode w = .error e) : step s = .next (s.failed (Err.ofDecode e)) := by
  rw [step_of_due s w h, runWord_error w s e hd]
  rfl

/-- Settles O4: the row found for OP fixes the class and the command, and a refused word only raises. -/
theorem decodeChecksInOrder : Obligations.DecodeChecksInOrder := by
  refine fun w => ⟨?_, fun s e hdue hd => ?_⟩
  · have h := decode_eq_checks w
    rw [rsvField_toNat, opField_toNat, lenField_toNat, flgField_toNat, lenField_eq_ofNat,
      flgField_eq_ofNat] at h
    exact h
  · rw [step_of_decode_error s w e hdue hd]
    cases e <;> rfl

end Sys2Proof.Machine
end

section
/-! SUPPORT. The obligations about the compression function (40_compression.md R123 to R129), and the laws they
need: rotation, the bytes of a word, G word by word, the message words, the start state, the schedule and the
wide output. -/

namespace Sys2Proof.Machine

/-! ### Words and their bytes -/

/-- The model's rotation is the library's (R9). -/
theorem rotr32_eq_rotateRight (x : Word) {n : Nat} (h : n < 32) : rotr32 x n = x.rotateRight n := by
  rw [BitVec.rotateRight_def, Nat.mod_eq_of_lt h, rotr32]

theorem wordByte_eq_extractLsb' (w : Word) (j : Nat) : wordByte w j = w.extractLsb' (8 * j) 8 := by
  apply BitVec.eq_of_getLsbD_eq
  intro i hi
  simp [wordByte, hi]

theorem byteAt_leBytes (w : Word) {j : Nat} (h : j < 4) : byteAt (leBytes w) j = wordByte w j := by
  rw [wordByte_eq_extractLsb']
  interval_cases j <;> rfl

/-- The word read at byte `k` has the four bytes from `k` on, least significant first (R10). -/
theorem wordByte_le32 (b : List Byte) (k : Nat) {j : Nat} (h : j < 4) :
    wordByte (le32 b k) j = byteAt b (k + j) := by
  have hbytes : leBytes (le32 b k) = [byteAt b k, byteAt b (k + 1), byteAt b (k + 2), byteAt b (k + 3)] :=
    leBytes_le32 _ _ _ _ []
  rw [← byteAt_leBytes _ h, hbytes]
  interval_cases j <;> rfl

/-- The byte string of a register array, by the array's byte view (R40). -/
theorem byteAt_bufBytes_eq_arrayByte {n : Nat} (v : Vector Word n) {k : Nat} (h : k < 4 * n) :
    byteAt (bufBytes v) k = arrayByte v k := by
  have hk : k / 4 < v.toList.length := by rw [Vector.length_toList]; omega
  rw [byteAt_bufBytes v k h, arrayByte, wordByte_eq_extractLsb', List.getD_eq_getElem _ _ hk,
    Vector.getElem_toList]

/-! ### G and the message words -/

/-- Half of G (R125): an addition with a message word, and the two rotations that follow it. -/
def halfRound (v : Block16) (a b c d : Fin 16) (mw : Word) (r₁ r₂ : Nat) : Block16 :=
  let v := v.set a (v[a] + v[b] + mw)
  let v := v.set d (rotr32 (v[d] ^^^ v[a]) r₁)
  let v := v.set c (v[c] + v[d])
  v.set b (rotr32 (v[b] ^^^ v[c]) r₂)

/-- G is its half, run twice. -/
theorem quarterRound_eq_halfRound (v : Block16) (a b c d : Fin 16) (mx my : Word) :
    quarterRound v a b c d mx my = halfRound (halfRound v a b c d mx 16 12) a b c d my 8 7 := rfl

/-- The four words half of G writes, and that it keeps every other. -/
theorem halfRound_getElem (v : Block16) {a b c d : Fin 16} (mw : Word) {r₁ r₂ : Nat}
    (h : [a, b, c, d].Nodup) (h₁ : r₁ < 32) (h₂ : r₂ < 32) :
    let a1 := v[a] + v[b] + mw
    let d1 := (v[d] ^^^ a1).rotateRight r₁
    let c1 := v[c] + d1
    let b1 := (v[b] ^^^ c1).rotateRight r₂
    let w := halfRound v a b c d mw r₁ r₂
    w[a] = a1 ∧ w[b] = b1 ∧ w[c] = c1 ∧ w[d] = d1 ∧ ∀ i : Fin 16, i ∉ [a, b, c, d] → w[i] = v[i] := by
  simp only [List.nodup_cons, List.mem_cons, List.not_mem_nil, or_false, not_or, Fin.ext_iff] at h
  obtain ⟨⟨hab, hac, had⟩, ⟨hbc, hbd⟩, hcd, -⟩ := h
  simp only [halfRound, Fin.getElem_fin, rotr32_eq_rotateRight _ h₁, rotr32_eq_rotateRight _ h₂,
    Vector.getElem_set]
  simp only [hab, hac, had, hbc, hbd, hcd, Ne.symm hab, Ne.symm hac, Ne.symm had, Ne.symm hbc,
    Ne.symm hbd, Ne.symm hcd, if_true, if_false, true_and]
  intro i hi
  simp only [List.mem_cons, List.not_mem_nil, or_false, not_or, Fin.ext_iff] at hi
  obtain ⟨ha, hb, hc, hd⟩ := hi
  simp only [Ne.symm ha, Ne.symm hb, Ne.symm hc, Ne.symm hd, if_false]

/-- G as its eight equations on four different words, every other word kept (R125). -/
theorem quarterRound_getElem (v : Block16) (a b c d : Fin 16) (mx my : Word) (h : [a, b, c, d].Nodup) :
    let a1 := v[a] + v[b] + mx
    let d1 := (v[d] ^^^ a1).rotateRight 16
    let c1 := v[c] + d1
    let b1 := (v[b] ^^^ c1).rotateRight 12
    let a2 := a1 + b1 + my
    let d2 := (d1 ^^^ a2).rotateRight 8
    let c2 := c1 + d2
    let b2 := (b1 ^^^ c2).rotateRight 7
    let w := quarterRound v a b c d mx my
    w[a] = a2 ∧ w[b] = b2 ∧ w[c] = c2 ∧ w[d] = d2 ∧ ∀ i : Fin 16, i ∉ [a, b, c, d] → w[i] = v[i] := by
  rw [quarterRound_eq_halfRound]
  obtain ⟨ha, hb, hc, hd, hother⟩ := halfRound_getElem v mx h (r₁ := 16) (r₂ := 12) (by decide) (by decide)
  obtain ⟨ha', hb', hc', hd', hother'⟩ :=
    halfRound_getElem (halfRound v a b c d mx 16 12) my h (r₁ := 8) (r₂ := 7) (by decide) (by decide)
  simp only [ha, hb, hc, hd] at ha' hb' hc' hd'
  exact ⟨ha', hb', hc', hd', fun i hi => (hother' i hi).trans (hother i hi)⟩

/-- Message word `i` is read at byte `4i` of the block (R124). -/
theorem messageWords_getElem (block : List Byte) (i : Fin 16) :
    (messageWords block)[i] = le32 block (4 * i.val) := by
  simp [messageWords, bufWords]

/-! ### The start state and the schedule -/

theorem counter_low (ctr : Word64) : ctr.extractLsb' 0 32 = BitVec.ofNat 32 (ctr.toNat % 2 ^ 32) := by
  apply BitVec.eq_of_toNat_eq
  simp

theorem counter_high (ctr : Word64) : ctr.extractLsb' 32 32 = BitVec.ofNat 32 (ctr.toNat / 2 ^ 32) := by
  apply BitVec.eq_of_toNat_eq
  simp [Nat.shiftRight_eq_div_pow]

/-- The sixteen words the rounds start from, with the counter's two words as numbers (R127). -/
theorem initBlock_toList (cv : ChainingValue) (n : Nat) (ctr : Word64) (f : Byte) :
    (initBlock cv n ctr f).toList
      = cv.toList ++ [0x6A09E667, 0xBB67AE85, 0x3C6EF372, 0xA54FF53A, BitVec.ofNat 32 (ctr.toNat % 2 ^ 32),
          BitVec.ofNat 32 (ctr.toNat / 2 ^ 32), BitVec.ofNat 32 n, BitVec.ofNat 32 f.toNat] := by
  simp only [initBlock, Vector.toList_append, counter_low, counter_high, BitVec.ofNat_toNat]
  rfl

/-- PERM, which takes each schedule row to the next (R123). -/
def schedPerm : Vector (Fin 16) 16 := #v[2, 6, 3, 10, 7, 0, 4, 13, 1, 11, 12, 5, 9, 14, 15, 8]

theorem sched_isChain_perm :
    sched.IsChain fun row row' => ∀ j : Fin 16, row'[j] = row[schedPerm[j]] := by decide

theorem sched_succ_row {r : Nat} {row row' : Vector (Fin 16) 16} (h : sched[r]? = some row)
    (h' : sched[r + 1]? = some row') (j : Fin 16) : row'[j] = row[schedPerm[j]] := by
  obtain ⟨hr, rfl⟩ := List.getElem?_eq_some_iff.1 h
  obtain ⟨hr', rfl⟩ := List.getElem?_eq_some_iff.1 h'
  exact List.isChain_iff_getElem.1 sched_isChain_perm r hr' j

/-! ### The wide output (R128) -/

theorem compressWide_getElem_low (cv : ChainingValue) (block : List Byte) (n : Nat) (ctr : Word64) (f : Byte)
    (i : Fin 8) :
    let v := sevenRounds (initBlock cv n ctr f) (messageWords block)
    (compressWide cv block n ctr f)[i.val] = v[i.val] ^^^ v[i.val + 8] := by
  simp [compressWide]

theorem compressWide_getElem_high (cv : ChainingValue) (block : List Byte) (n : Nat) (ctr : Word64) (f : Byte)
    (i : Fin 8) :
    let v := sevenRounds (initBlock cv n ctr f) (messageWords block)
    (compressWide cv block n ctr f)[i.val + 8] = v[i.val + 8] ^^^ cv[i.val] := by
  simp [compressWide]

theorem compressCv_getElem (cv : ChainingValue) (block : List Byte) (n : Nat) (ctr : Word64) (f : Byte)
    (i : Fin 8) : (compressCv cv block n ctr f)[i.val] = (compressWide cv block n ctr f)[i.val] := by
  simp [compressCv]

/-! ### The obligations -/

/-- Settles O27: G as its half run twice, and the rest by the laws of the words, the start state and the
schedule. -/
theorem compressionStateAndRounds : Obligations.CompressionStateAndRounds := by
  refine ⟨quarterRound_getElem, fun v m row => rfl, fun block i j hj => ?_, initBlock_toList,
    sched, rfl, ?_, fun r row row' h h' => sched_succ_row h h', fun v m => rfl⟩
  · rw [messageWords_getElem, wordByte_le32 block _ hj]
  · rintro _ ⟨rfl⟩
    decide

/-- Settles O28: the halves and the chaining value word by word, the 64 bytes by the array's byte view. -/
theorem wideAndChainingOutput : Obligations.WideAndChainingOutput :=
  fun cv block n ctr f =>
    ⟨fun i => ⟨compressWide_getElem_low cv block n ctr f i, compressWide_getElem_high cv block n ctr f i⟩,
      bufBytes_length _, fun _ hk => byteAt_bufBytes_eq_arrayByte _ hk, compressCv_getElem cv block n ctr f⟩

end Sys2Proof.Machine
end

section
/-! SUPPORT. The obligations about the chunk accumulator (41_chunk.md R156, R157), and the laws they need:
a fresh chunk's input compressed block by block, and the chaining value it reaches. -/

namespace Sys2Proof.Machine

/-! ### A fresh buffer's input, block by block (R153) -/

/-- Block `i` of a byte string. -/
def blockAt (b : List Byte) (i : Nat) : List Byte := (b.drop (64 * i)).take 64

theorem blockAt_drop_block (b : List Byte) (i : Nat) : blockAt (b.drop 64) i = blockAt b (i + 1) := by
  simp only [blockAt, List.drop_drop, Nat.mul_add, Nat.mul_one, Nat.add_comm]

/-- The chunk after compressing the first `m` blocks of `b` in order. -/
def Chunk.compressBlocks (F : Byte) (c : Chunk) (b : List Byte) (m : Nat) : Chunk :=
  (List.range m).foldl (fun c i => c.compressBlock F (blockAt b i)) c

/-- The first of the blocks compressed on its own, then the others. -/
theorem compressBlocks_succ_first (F : Byte) (c : Chunk) (b : List Byte) (m : Nat) :
    c.compressBlocks F b (m + 1) = (c.compressBlock F (b.take 64)).compressBlocks F (b.drop 64) m := by
  simp only [Chunk.compressBlocks, List.range_succ_eq_map, List.foldl_cons, List.foldl_map, blockAt_drop_block]
  rfl

/-- The last of the blocks compressed after the others. -/
theorem compressBlocks_succ_last (F : Byte) (c : Chunk) (b : List Byte) (m : Nat) :
    c.compressBlocks F b (m + 1) = (c.compressBlocks F b m).compressBlock F (blockAt b m) := by
  simp only [Chunk.compressBlocks, List.range_succ, List.foldl_append, List.foldl_cons, List.foldl_nil]

theorem chunkUpdate_of_fits {F : Byte} {c : Chunk} {b : List Byte} (hc : c.buf = []) (h : b.length ≤ 64) :
    chunkUpdate F c b = { c with buf := b } := by
  rw [chunkUpdate_eq_foldl F c b (by simp [hc]), foldl_absorbByte_fits F c b (by simpa [hc] using h), hc,
    List.nil_append]

theorem chunkUpdate_of_more {F : Byte} {c : Chunk} {b : List Byte} (hc : c.buf = []) (h : 64 < b.length) :
    chunkUpdate F c b = chunkUpdate F (c.compressBlock F (b.take 64)) (b.drop 64) := by
  rw [chunkUpdate_eq_foldl F c b (by simp [hc]), foldl_absorbByte_block F c b hc h,
    chunkUpdate_eq_foldl F _ _ (by simp [hc])]

/-- `m` blocks that more input follows are compressed, and the rest, at most a block, is buffered. -/
theorem chunkUpdate_eq_compressBlocks (F : Byte) {m : Nat} {c : Chunk} {b : List Byte} (hc : c.buf = [])
    (hmore : 64 * m < b.length) (hrest : b.length ≤ 64 * (m + 1)) :
    chunkUpdate F c b = { c.compressBlocks F b m with buf := b.drop (64 * m) } := by
  induction m generalizing c b with
  | zero => exact chunkUpdate_of_fits hc hrest
  | succ m ih =>
    have hlen : (b.drop 64).length = b.length - 64 := List.length_drop
    rw [chunkUpdate_of_more hc (by omega), ih (by simp [hc]) (by omega) (by omega), compressBlocks_succ_first,
      List.drop_drop, Nat.mul_succ, Nat.add_comm 64]

/-! ### A fresh chunk's chaining value and flags (R152, R157) -/

/-- The chaining value after the first `m` blocks of `b`: block_len 64, CHUNK_START on block 0 only. -/
def blocksCv (K : ChainingValue) (F : Byte) (ctr : Word64) (b : List Byte) (m : Nat) : ChainingValue :=
  (List.range m).foldl (fun cv i =>
    compressCv cv (blockAt b i) 64 ctr (F ||| if i = 0 then 0x01 else 0x00)) K

theorem blocksCv_succ (K : ChainingValue) (F : Byte) (ctr : Word64) (b : List Byte) (m : Nat) :
    blocksCv K F ctr b (m + 1)
      = compressCv (blocksCv K F ctr b m) (blockAt b m) 64 ctr (F ||| if m = 0 then 0x01 else 0x00) := by
  simp only [blocksCv, List.range_succ, List.foldl_append, List.foldl_cons, List.foldl_nil]

/-- The count of compressed blocks is the index of the next one, so `start_flag` marks block 0 alone. -/
theorem compressBlocks_chunkInit (K : ChainingValue) (F : Byte) (ctr : Word64) (b : List Byte) (m : Nat) :
    (chunkInit K F ctr).compressBlocks F b m
      = { chunkInit K F ctr with cv := blocksCv K F ctr b m, blocks := m } := by
  induction m with
  | zero => rfl
  | succ m ih => rw [compressBlocks_succ_last, ih, blocksCv_succ]; rfl

/-- A chunk whose input ends in block `m`: the blocks before it compressed, that block in the buffer. -/
theorem chunkUpdate_chunkInit (K : ChainingValue) (F : Byte) (ctr : Word64) {b : List Byte} {m : Nat}
    (hmore : 64 * m < b.length) (hrest : b.length ≤ 64 * (m + 1)) :
    chunkUpdate F (chunkInit K F ctr) b
      = { cv := blocksCv K F ctr b m, counter := ctr, buf := b.drop (64 * m), blocks := m, flags := F } := by
  rw [chunkUpdate_eq_compressBlocks F (chunkInit_buf K F ctr) hmore hrest, compressBlocks_chunkInit]
  rfl

/-! ### The obligations -/

/-- Settles O30: the input ends in block `m = k - 1`, so the chunk is `chunkUpdate_chunkInit` at `m`, and its
node reads the buffer and the count of compressed blocks off that chunk. -/
theorem chunkBlockFlags : Obligations.ChunkBlockFlags := by
  intro K F ctr b hpos _ k
  obtain ⟨m, hm⟩ : ∃ m, k = m + 1 := ⟨k - 1, by omega⟩
  have hlast : k - 1 = m := by omega
  have hone : m = 0 ↔ k = 1 := by omega
  have hlen : (b.drop (64 * m)).length = b.length - 64 * m := List.length_drop
  rw [hlast, chunkUpdate_chunkInit K F ctr (m := m) (by omega) (by omega)]
  exact ⟨rfl, rfl, rfl, rfl, hlen, congrArg (F ||| · ||| 0x02) (if_congr hone rfl rfl), rfl⟩

/-- Settles O31: a chunk of length 0 has no compressed block and an empty buffer (R151). -/
theorem emptyChunkNode : Obligations.EmptyChunkNode := by
  intro F c h
  have hsum : 64 * c.blocks + c.buf.length = 0 := h
  have hblocks : c.blocks = 0 := by omega
  have hbuf : c.buf = [] := List.eq_nil_of_length_eq_zero (by omega)
  simp only [chunkOutputNode, Chunk.startFlag, hblocks, hbuf]
  rfl

end Sys2Proof.Machine
end

section
/-! SUPPORT. The obligations about the output finalizer (42_tree_finalize.md R178, R179, R181), and the laws they
need: the output stream byte by byte, and when `finalize_bytes` and FINALIZE raise E_XOF_RANGE. -/

namespace Sys2Proof.Machine

/-! ### The output stream (R178) -/

theorem streamByte_eq_arrayByte (n : Node) (p : Nat) :
    streamByte n p
      = arrayByte (compressWide n.cv n.block n.blockLen (BitVec.ofNat 64 (p / 64)) (n.flags ||| 0x08)) (p % 64) :=
  byteAt_bufBytes_eq_arrayByte _ (Nat.mod_lt p (by decide))

theorem byteAt_rootBytes (n : Node) (seek : Nat) {len j : Nat} (h : j < len) :
    byteAt (rootBytes n seek len) j = streamByte n (seek + j) := by
  simp [byteAt, rootBytes, h]

/-- Byte `p` of the stream is in output block 0 when `p` is below 64. -/
theorem streamByte_of_lt (n : Node) {p : Nat} (h : p < 64) : streamByte n p = byteAt (outputBlock n 0) p := by
  rw [streamByte, Nat.div_eq_of_lt h, Nat.mod_eq_of_lt h]

/-- A read of `k + len` bytes is a read of `k` bytes and the read of `len` bytes that follows it. -/
theorem rootBytes_add (n : Node) (seek k len : Nat) :
    rootBytes n seek (k + len) = rootBytes n seek k ++ rootBytes n (seek + k) len := by
  simp [rootBytes, List.range_add, Nat.add_assoc]

theorem rootBytes_eq_drop_take (n : Node) (k len : Nat) :
    rootBytes n k len = ((rootBytes n 0 (k + len)).drop k).take len := by
  rw [rootBytes_add, List.drop_left' (rootBytes_length n 0 k), Nat.zero_add,
    List.take_of_length_le (rootBytes_length n k len).le]

/-! ### The range rule (R179) -/

/-- The requests that MULTI_CHUNK_XOF does not allow: under `restricted`, past byte 64 of a multi-chunk
session's output. -/
def OutOfRange (xof : MultiChunkXof) (m : Hasher) (seek len : Nat) : Prop :=
  xof = .restricted ∧ m.stack ≠ [] ∧ 0 < len ∧ 64 < seek + len

theorem finalizeBytes_of_outOfRange {xof : MultiChunkXof} {m : Hasher} {seek len : Nat}
    (h : OutOfRange xof m seek len) : finalizeBytes xof m seek len = .error .xofRange := by
  obtain ⟨hxof, hstack, hlen, hend⟩ := h
  rw [finalizeBytes, if_neg (by omega), if_pos ⟨hstack, hend, hxof⟩]

theorem finalizeBytes_of_inRange {xof : MultiChunkXof} {m : Hasher} {seek len : Nat}
    (h : ¬ OutOfRange xof m seek len) : finalizeBytes xof m seek len = .ok (rootBytes (rootNode m) seek len) := by
  rw [finalizeBytes]
  split
  next hzero => rw [hzero]; rfl
  next hpos =>
    rw [if_neg fun ⟨hstack, hend, hxof⟩ => h ⟨hxof, hstack, Nat.pos_of_ne_zero hpos, hend⟩]

theorem not_outOfRange_standard (m : Hasher) (seek len : Nat) : ¬ OutOfRange .standard m seek len :=
  fun h => nomatch h.1

theorem finalizeBytes_standard (m : Hasher) (seek len : Nat) :
    finalizeBytes .standard m seek len = .ok (rootBytes (rootNode m) seek len) :=
  finalizeBytes_of_inRange (not_outOfRange_standard m seek len)

theorem finalizeBytes_eq_error_iff (xof : MultiChunkXof) (m : Hasher) (seek len : Nat) (e : Err) :
    finalizeBytes xof m seek len = .error e ↔ e = .xofRange ∧ OutOfRange xof m seek len := by
  by_cases h : OutOfRange xof m seek len
  · simp [finalizeBytes_of_outOfRange h, h, eq_comm]
  · simp [finalizeBytes_of_inRange h, h]

theorem finalizeBytes_eq_ok_iff (xof : MultiChunkXof) (m : Hasher) (seek len : Nat) (out : List Byte) :
    finalizeBytes xof m seek len = .ok out
      ↔ ¬ OutOfRange xof m seek len ∧ out = rootBytes (rootNode m) seek len := by
  by_cases h : OutOfRange xof m seek len
  · simp [finalizeBytes_of_outOfRange h, h]
  · simp [finalizeBytes_of_inRange h, h, eq_comm]

/-! ### FINALIZE (R207) -/

/-- SEEK from its two registers (R26). -/
theorem seek_toNat (s : State) : s.seek.toNat = pairNat s.seekHi s.seekLo := by
  have hlow := s.seekLo.isLt
  have hhigh := s.seekHi.isLt
  rw [State.seek, pair64, pairNat, BitVec.toNat_or, BitVec.toNat_shiftLeft, BitVec.toNat_setWidth,
    BitVec.toNat_setWidth, Nat.mod_eq_of_lt (a := s.seekHi.toNat) (by omega),
    Nat.mod_eq_of_lt (a := s.seekLo.toNat) (by omega), Nat.shiftLeft_eq, Nat.mod_eq_of_lt (by omega),
    Nat.mul_comm, Nat.two_pow_add_eq_or_of_lt hlow]

theorem exec_finalize_of_error (s : State) {len : Byte} (hlen : len.toNat ≤ 64) (hmode : s.mode ≠ .none) {e : Err}
    (h : finalizeBytes Config.multiChunkXof s.session (pairNat s.seekHi s.seekLo) len.toNat = .error e) :
    exec (.finalize len) s = .next (s.raise e) := by
  simp only [exec, execFinalize, maxLen, Nat.not_lt.2 hlen, hmode, if_false, seek_toNat, h]

theorem exec_finalize_of_ok (s : State) {len : Byte} (hlen : len.toNat ≤ 64) (hmode : s.mode ≠ .none)
    {out : List Byte}
    (h : finalizeBytes Config.multiChunkXof s.session (pairNat s.seekHi s.seekLo) len.toNat = .ok out) :
    exec (.finalize len) s
      = .next { s with dout := bufWords 16 (out ++ (bufBytes s.dout).drop len.toNat) }.complete := by
  simp only [exec, execFinalize, maxLen, Nat.not_lt.2 hlen, hmode, if_false, seek_toNat, h]

/-- FINALIZE ends with E_XOF_RANGE exactly when `finalize_bytes` raises it (R207). -/
theorem exec_finalize_xofRange_iff (s : State) {len : Byte} (hlen : len.toNat ≤ 64) (hmode : s.mode ≠ .none) :
    exec (.finalize len) s = .next (s.failed .xofRange)
      ↔ OutOfRange Config.multiChunkXof s.session (pairNat s.seekHi s.seekLo) len.toNat := by
  by_cases h : OutOfRange Config.multiChunkXof s.session (pairNat s.seekHi s.seekLo) len.toNat
  · rw [exec_finalize_of_error s hlen hmode (finalizeBytes_of_outOfRange h)]
    exact iff_of_true rfl h
  · rw [exec_finalize_of_ok s hlen hmode (finalizeBytes_of_inRange h)]
    refine iff_of_false (fun heq => ?_) h
    have herr : Err.ok = Err.xofRange := congrArg State.err (Host.Outcome.next.inj heq)
    cases herr

/-! ### The obligations -/

/-- Settles O25: byte `j` of a read is byte `seek + j` of the stream, which is cut from its output block. -/
theorem outputStreamBytes : Obligations.OutputStreamBytes :=
  fun n seek len =>
    ⟨rootBytes_length n seek len, fun _ hj => (byteAt_rootBytes n seek hj).trans (streamByte_eq_arrayByte n _)⟩

/-- Settles O24: whatever a setting returns is `root_bytes`, whose read of `k + len` bytes splits at `k`. -/
theorem seekConsistency : Obligations.SeekConsistency := by
  intro m k len
  refine ⟨⟨_, _, finalizeBytes_standard m k len, finalizeBytes_standard m 0 (k + len),
    rootBytes_eq_drop_take _ k len⟩, fun a b ha hb => ?_⟩
  obtain ⟨-, rfl⟩ := (finalizeBytes_eq_ok_iff _ _ _ _ _).1 ha
  obtain ⟨-, rfl⟩ := (finalizeBytes_eq_ok_iff _ _ _ _ _).1 hb
  exact rootBytes_eq_drop_take _ k len

/-- Settles O22: the laws of the range rule; a read that `restricted` allows on a multi-chunk session ends by
byte 64, so all its bytes are in output block 0. -/
theorem multiChunkRangeRule : Obligations.MultiChunkRangeRule := by
  refine ⟨fun m seek len => ⟨?_, finalizeBytes_standard m seek len, fun out hout => ?_⟩,
    fun s len hlen hmode => exec_finalize_xofRange_iff s hlen hmode⟩
  · simp [finalizeBytes_eq_error_iff, OutOfRange]
  · obtain ⟨hrange, rfl⟩ := (finalizeBytes_eq_ok_iff _ _ _ _ _).1 hout
    refine ⟨finalizeBytes_standard m seek len, fun hstack j hj => ?_⟩
    have hend : seek + len ≤ 64 :=
      Nat.not_lt.1 fun hlt => hrange ⟨rfl, hstack, Nat.zero_lt_of_lt hj, hlt⟩
    rw [byteAt_rootBytes _ _ hj, streamByte_of_lt _ (by omega)]

end Sys2Proof.Machine
end

section
/-! SUPPORT. The obligation about splitting an input (42_tree_finalize.md R182), and the laws it needs: what a
completed UPDATE leaves in the session, and that two `hasher_update`s are one. -/

namespace Sys2Proof.Machine

/-! ### hasher_update on pieces -/

theorem foldl_absorb_sized (m : Hasher) (b : List Byte) (h : m.chunk.Sized) :
    (b.foldl Hasher.absorb m).chunk.Sized :=
  List.foldlRecOn b Hasher.absorb h fun m hm x _ => absorb_sized m x hm

theorem hasherUpdate_of_sized {m : Hasher} (h : m.chunk.Sized) (b : List Byte) :
    hasherUpdate m b = b.foldl Hasher.absorb m :=
  hasherUpdate_eq_foldl m b h.1 h.len_le

theorem hasherUpdate_sized {m : Hasher} (h : m.chunk.Sized) (b : List Byte) : (hasherUpdate m b).chunk.Sized := by
  rw [hasherUpdate_of_sized h]
  exact foldl_absorb_sized m b h

/-- Both sides absorb the same bytes one by one. -/
theorem hasherUpdate_append {m : Hasher} (h : m.chunk.Sized) (x y : List Byte) :
    hasherUpdate (hasherUpdate m x) y = hasherUpdate m (x ++ y) := by
  rw [hasherUpdate_of_sized (hasherUpdate_sized h x), hasherUpdate_of_sized h, hasherUpdate_of_sized h,
    List.foldl_append]

/-! ### UPDATE (R206) -/

theorem updateBytes_eq_take (d : Vector Word 16) {len : Byte} (h : len.toNat ≤ 64) :
    updateBytes d len = (bufBytes d).take len.toNat := by
  have hsize : (bufBytes d).length = 64 := bufBytes_length d
  apply List.ext_getElem
  · rw [List.length_take, hsize, Nat.min_eq_left h, updateBytes, List.length_map, List.length_range]
  · intro k hk hk'
    have hbuf : k < (bufBytes d).length := (List.length_take_le' _ _).trans_lt' hk'
    rw [List.getElem_take, ← List.getD_eq_getElem _ 0 hbuf]
    simp only [updateBytes, List.getElem_map, List.getElem_range]
    exact (byteAt_bufBytes_eq_arrayByte d (hbuf.trans_eq hsize)).symm

/-- An UPDATE that completes absorbs its bytes of DIN. -/
theorem exec_update_session {s t : State} {len : Byte} (h : exec (.update len) s = .next t) (hok : t.err = .ok) :
    t.session = hasherUpdate s.session (updateBytes s.din len) := by
  have hraise : ∀ e : Err, e ≠ .ok → (Host.Outcome.next (s.raise e) : Result) ≠ .next t := by
    rintro e he ⟨rfl⟩
    exact he hok
  simp only [exec, execUpdate] at h
  split at h
  · exact absurd h (hraise _ (by decide))
  next hlen =>
    split at h
    · exact absurd h (hraise _ (by decide))
    · split at h
      · exact absurd h (hraise _ (by decide))
      · obtain rfl := Host.Outcome.next.inj h
        rw [updateBytes_eq_take _ (Nat.not_lt.1 hlen)]
        rfl

/-- A sequence of completing UPDATEs absorbs their data, one after the other. -/
theorem updates_session (us : List (Vector Word 16 × Byte)) {s t : State} (hs : s.session.chunk.Sized)
    (h : Updates s us t) :
    t.session = hasherUpdate s.session (us.flatMap fun u => updateBytes u.1 u.2) := by
  induction us generalizing s with
  | nil =>
    obtain rfl : t = s := h
    rfl
  | cons u us ih =>
    obtain ⟨v, hexec, hok, hrest⟩ := h
    have hv : v.session = hasherUpdate s.session (updateBytes u.1 u.2) := (exec_update_session hexec hok :)
    rw [ih (hv ▸ hasherUpdate_sized hs _) hrest, hv, hasherUpdate_append hs, List.flatMap_cons]

/-! ### The obligation -/

/-- Settles O19: a legal session absorbs byte by byte, so the split does not matter, and a sequence of UPDATEs
ends in the session that absorbed the concatenation of their data. -/
theorem splitIndependence : Obligations.SplitIndependence := by
  refine ⟨fun m hm x y => hasherUpdate_append hm.ready.sized x y, fun x y => ?_,
    fun s t t' us us' hs h h' hdata => ?_⟩
  · rw [hasherUpdate_append (chunkInit_sized _ _ _), oneshotHash]
  · have hsized : s.session.chunk.Sized := hs.1.ready.sized
    rw [updates_session us hsized h, updates_session us' hsized h', hdata]

end Sys2Proof.Machine
end

section
/-! SUPPORT. The obligation about the canonical tree (42_tree_finalize.md R171, R176), and the laws it needs. The
stack that mirrors a list of chunk CVs holds the left subtrees along the right edge of the canonical tree;
pushing a chunk and folding the stack both combine entries from the top. -/

namespace Sys2Proof.Machine

/-! ### The parent node (R171) -/

theorem bufBytes_append {m n : Nat} (v : Vector Word m) (w : Vector Word n) :
    bufBytes (v ++ w) = bufBytes v ++ bufBytes w := by
  simp [bufBytes, Vector.toList_append]

theorem messageWords_parentNode (K : ChainingValue) (F : Byte) (l r : ChainingValue) :
    messageWords (parentNode K F l r).block = l ++ r := by
  rw [parentNode, ← bufBytes_append, messageWords]
  exact bufWords_bufBytes (l ++ r)

/-- The CV of the parent of two subtrees. -/
def parentCv (K : ChainingValue) (F : Byte) (l r : ChainingValue) : ChainingValue := nodeCv (parentNode K F l r)

/-! ### The canonical tree (R176) -/

theorem leftSize_pos (n : Nat) : 0 < leftSize n := Nat.two_pow_pos _

theorem leftSize_lt {n : Nat} (h : 2 ≤ n) : leftSize n < n := by
  have := Nat.log2_self_le (n := n - 1) (by omega)
  rw [leftSize]
  omega

theorem subtreeCv_of_two_le (K : ChainingValue) (F : Byte) (fuel : Nat) {cs : List ChainingValue}
    (h : 2 ≤ cs.length) :
    subtreeCv K F (fuel + 1) cs
      = parentCv K F (subtreeCv K F fuel (cs.take (leftSize cs.length)))
          (subtreeCv K F fuel (cs.drop (leftSize cs.length))) := by
  match cs, h with
  | _ :: _ :: _, _ => rfl

/-- Fuel for every chunk is enough. -/
theorem subtreeCv_fuel (K : ChainingValue) (F : Byte) {fuel fuel' : Nat} {cs : List ChainingValue}
    (h : cs.length ≤ fuel) (h' : cs.length ≤ fuel') : subtreeCv K F fuel cs = subtreeCv K F fuel' cs := by
  induction fuel generalizing fuel' cs with
  | zero =>
    obtain rfl := List.eq_nil_of_length_eq_zero (Nat.le_zero.1 h)
    simp [subtreeCv]
  | succ fuel ih =>
    rcases Nat.lt_or_ge cs.length 2 with hlt | hge
    · match cs, hlt with
      | [], _ => simp [subtreeCv]
      | [_], _ => simp [subtreeCv]
    · obtain ⟨fuel', rfl⟩ : ∃ k, fuel' = k + 1 := ⟨fuel' - 1, by omega⟩
      have hpos := leftSize_pos cs.length
      have hlt := leftSize_lt hge
      rw [subtreeCv_of_two_le K F fuel hge, subtreeCv_of_two_le K F fuel' hge,
        ih (fuel' := fuel') (by rw [List.length_take]; omega) (by rw [List.length_take]; omega),
        ih (fuel' := fuel') (by rw [List.length_drop]; omega) (by rw [List.length_drop]; omega)]

/-- The CV of the canonical tree over `cs`. -/
def treeCv (K : ChainingValue) (F : Byte) (cs : List ChainingValue) : ChainingValue := subtreeCv K F cs.length cs

theorem treeCv_singleton (K : ChainingValue) (F : Byte) (c : ChainingValue) : treeCv K F [c] = c := rfl

theorem canonicalRoot_eq (K : ChainingValue) (F : Byte) (cs : List ChainingValue) :
    canonicalRoot K F cs
      = parentNode K F (treeCv K F (cs.take (leftSize cs.length))) (treeCv K F (cs.drop (leftSize cs.length))) := by
  rw [treeCv, treeCv, canonicalRoot, subtreeCv_fuel K F (List.length_take_le' _ _) (Nat.le_refl _),
    subtreeCv_fuel K F (fuel := cs.length) (by rw [List.length_drop]; omega) (Nat.le_refl _)]

theorem treeCv_of_two_le (K : ChainingValue) (F : Byte) {cs : List ChainingValue} (h : 2 ≤ cs.length) :
    treeCv K F cs = nodeCv (canonicalRoot K F cs) := by
  rw [treeCv, subtreeCv_fuel K F (Nat.le_refl _) (Nat.le_succ _), subtreeCv_of_two_le K F _ h]
  rfl

/-- With one chunk more than `cs` holds, the left subtree is the largest power of two of `cs`'s own chunks. -/
theorem canonicalRoot_append_singleton (K : ChainingValue) (F : Byte) {cs : List ChainingValue} (h : cs ≠ [])
    (c : ChainingValue) :
    canonicalRoot K F (cs ++ [c])
      = parentNode K F (treeCv K F (cs.take (2 ^ cs.length.log2)))
          (treeCv K F (cs.drop (2 ^ cs.length.log2) ++ [c])) := by
  have hle := Nat.log2_self_le (n := cs.length) (by simpa using h)
  have hsize : leftSize (cs ++ [c]).length = 2 ^ cs.length.log2 := by simp [leftSize]
  rw [canonicalRoot_eq, hsize, List.take_append_of_le_length hle, List.drop_append_of_le_length hle]

/-! ### The stack that mirrors the chunks (R175) -/

/-- The stack after the chunks `cs`, bottom first: the tree over the largest power of two of them, and the
stack over the rest. -/
def treeStack (K : ChainingValue) (F : Byte) (cs : List ChainingValue) : List ChainingValue :=
  if cs = [] then []
  else treeCv K F (cs.take (2 ^ cs.length.log2)) :: treeStack K F (cs.drop (2 ^ cs.length.log2))
termination_by cs.length
decreasing_by
  have := List.length_pos_of_ne_nil ‹cs ≠ []›
  have := Nat.two_pow_pos cs.length.log2
  rw [List.length_drop]
  omega

@[simp] theorem treeStack_nil (K : ChainingValue) (F : Byte) : treeStack K F [] = [] := by
  rw [treeStack, if_pos rfl]

theorem treeStack_of_ne_nil (K : ChainingValue) (F : Byte) {cs : List ChainingValue} (h : cs ≠ []) :
    treeStack K F cs
      = treeCv K F (cs.take (2 ^ cs.length.log2)) :: treeStack K F (cs.drop (2 ^ cs.length.log2)) := by
  rw [treeStack, if_neg h]

theorem treeStack_of_log2 (K : ChainingValue) (F : Byte) {cs : List ChainingValue} {e : Nat}
    (hlow : 2 ^ e ≤ cs.length) (hhigh : cs.length < 2 ^ (e + 1)) :
    treeStack K F cs = treeCv K F (cs.take (2 ^ e)) :: treeStack K F (cs.drop (2 ^ e)) := by
  have hpos := (Nat.two_pow_pos e).trans_le hlow
  rw [treeStack_of_ne_nil K F (List.ne_nil_of_length_pos hpos), (Nat.log2_eq_iff hpos.ne').2 ⟨hlow, hhigh⟩]

/-- Folding the stack under one more chunk gives the tree over all of them. -/
theorem foldr_treeStack (K : ChainingValue) (F : Byte) (cs : List ChainingValue) (c : ChainingValue) :
    (treeStack K F cs).foldr (parentCv K F) c = treeCv K F (cs ++ [c]) := by
  fun_induction treeStack K F cs with
  | case1 => exact (treeCv_singleton K F c).symm
  | case2 cs h ih =>
    have hlen : 2 ≤ (cs ++ [c]).length := by
      have := List.length_pos_of_ne_nil h
      rw [List.length_append, List.length_singleton]
      omega
    rw [List.foldr_cons, ih, treeCv_of_two_le K F hlen, canonicalRoot_append_singleton K F h]
    rfl

/-! ### popcount and the highest bit -/

theorem popcountBits_two_pow_add {bits e r : Nat} (he : e < bits) (hr : r < 2 ^ e) :
    popcountBits bits (2 ^ e + r) = popcountBits bits r + 1 := by
  induction bits generalizing e r with
  | zero => omega
  | succ bits ih =>
    cases e with
    | zero =>
      obtain rfl : r = 0 := by omega
      rw [popcountBits, popcountBits]
      simp [Nat.add_comm]
    | succ e =>
      have hhalf : (2 ^ (e + 1) + r) / 2 = 2 ^ e + r / 2 := by omega
      have hbit : (2 ^ (e + 1) + r) % 2 = r % 2 := by omega
      rw [popcountBits, popcountBits, hhalf, hbit, ih (by omega) (by omega), Nat.add_assoc]

theorem popcount_two_pow_add {e r : Nat} (he : e < 65) (hr : r < 2 ^ e) :
    popcount (2 ^ e + r) = popcount r + 1 :=
  popcountBits_two_pow_add he hr

/-! ### Pushing a chunk (R172) -/

/-- The stack after `c` is pushed and merged down to `p` entries: all but the lowest `p - 1` entries are combined
with `c`. -/
def mergeTo (K : ChainingValue) (F : Byte) (p : Nat) (stack : List ChainingValue) (c : ChainingValue) :
    List ChainingValue :=
  stack.take (p - 1) ++ [(stack.drop (p - 1)).foldr (parentCv K F) c]

/-- Each merge combines the top entry with the CV above it, until the stack is short enough. -/
theorem mergeLoop_eq_mergeTo (K : ChainingValue) (F : Byte) (total : Nat) {fuel : Nat} {stack : List ChainingValue}
    (h : stack.length < fuel) (c : ChainingValue) :
    mergeLoop K F total fuel (stack ++ [c]) = mergeTo K F (popcount total) stack c := by
  induction fuel generalizing stack c with
  | zero => omega
  | succ fuel ih =>
    rw [mergeLoop]
    split
    next hlong =>
      rcases List.eq_nil_or_concat stack with rfl | ⟨below, top, rfl⟩
      · rw [mergeTo, List.take_nil, List.drop_nil]
        rfl
      · simp only [List.concat_eq_append, List.length_append, List.length_singleton] at hlong h
        have hroom : popcount total - 1 ≤ below.length := by omega
        simp only [List.concat_eq_append, List.reverse_append, List.reverse_singleton, List.singleton_append,
          List.reverse_reverse]
        rw [ih (by omega), mergeTo, mergeTo, List.take_append_of_le_length hroom,
          List.drop_append_of_le_length hroom, List.foldr_append]
        rfl
    next hshort =>
      have hlen : stack.length ≤ popcount total - 1 := by
        rw [List.length_append, List.length_singleton] at hshort; omega
      rw [mergeTo, List.take_of_length_le hlen, List.drop_of_length_le hlen]
      rfl

theorem pushCv_eq_mergeTo (K : ChainingValue) (F : Byte) (stack : List ChainingValue) (c : ChainingValue)
    (total : Nat) : pushCv K F stack c total = mergeTo K F (popcount total) stack c :=
  mergeLoop_eq_mergeTo K F total (by simp) c

theorem mergeTo_one (K : ChainingValue) (F : Byte) (stack : List ChainingValue) (c : ChainingValue) :
    mergeTo K F 1 stack c = [stack.foldr (parentCv K F) c] := rfl

theorem mergeTo_cons (K : ChainingValue) (F : Byte) {p : Nat} (hp : 0 < p) (x : ChainingValue)
    (stack : List ChainingValue) (c : ChainingValue) :
    mergeTo K F (p + 1) (x :: stack) c = x :: mergeTo K F p stack c := by
  obtain ⟨q, rfl⟩ : ∃ q, p = q + 1 := ⟨p - 1, by omega⟩
  rfl

/-- Pushing a chunk onto the stack that mirrors the chunks before it gives the one that mirrors them all. When
the number of chunks reaches a power of two the whole stack is combined; otherwise its bottom entry stays. -/
theorem mergeTo_treeStack (K : ChainingValue) (F : Byte) (cs : List ChainingValue) (c : ChainingValue)
    (h : cs.length < 2 ^ 64) :
    mergeTo K F (popcount (cs.length + 1)) (treeStack K F cs) c = treeStack K F (cs ++ [c]) := by
  fun_induction treeStack K F cs with
  | case1 =>
    have hone : popcount ([] : List ChainingValue).length.succ = 1 := by decide
    rw [hone, mergeTo_one, List.nil_append, treeStack_of_log2 K F (cs := [c]) (e := 0) (by simp) (by simp),
      List.take_of_length_le (by simp), List.drop_of_length_le (by simp), treeStack_nil]
    exact congrArg (· :: []) (treeCv_singleton K F c).symm
  | case2 cs hne ih =>
    have hlow := Nat.log2_self_le (n := cs.length) (by simpa using hne)
    have hhigh := Nat.lt_log2_self (n := cs.length)
    have hbits : cs.length.log2 < 64 := (Nat.log2_lt (by simpa using hne)).2 h
    have hsucc : (cs ++ [c]).length = cs.length + 1 := List.length_append
    rw [← treeStack_of_ne_nil K F hne]
    generalize cs.length.log2 = e at *
    obtain ⟨r, hr⟩ := Nat.exists_eq_add_of_le hlow
    rcases Nat.lt_or_ge (r + 1) (2 ^ e) with hlt | hge
    · have hrest : (cs.drop (2 ^ e)).length = r := by rw [List.length_drop]; omega
      rw [treeStack_of_log2 K F hlow hhigh,
        treeStack_of_log2 K F (cs := cs ++ [c]) (e := e) (by omega) (by omega), hr, Nat.add_assoc,
        popcount_two_pow_add (by omega) hlt, mergeTo_cons K F (popcount_pos _ (by omega) (by omega)),
        List.take_append_of_le_length hlow, List.drop_append_of_le_length hlow, ← ih (by omega), hrest]
    · have hpow : cs.length + 1 = 2 ^ (e + 1) + 0 := by omega
      rw [treeStack_of_log2 K F (cs := cs ++ [c]) (e := e + 1) (by omega) (by omega), hpow,
        popcount_two_pow_add (by omega) (Nat.two_pow_pos _), popcount_zero, mergeTo_one, foldr_treeStack,
        List.take_of_length_le (by omega), List.drop_of_length_le (by omega), treeStack_nil]

theorem pushCv_treeStack (K : ChainingValue) (F : Byte) {cs : List ChainingValue} (c : ChainingValue)
    (h : cs.length < 2 ^ 64) :
    pushCv K F (treeStack K F cs) c (cs.length + 1) = treeStack K F (cs ++ [c]) := by
  rw [pushCv_eq_mergeTo, mergeTo_treeStack K F cs c h]

/-! ### Folding the stack (R177) -/

/-- The fold from the top of the stack down stops at the bottom entry, which stays uncombined. -/
theorem rootFold_eq (K : ChainingValue) (F : Byte) (right left bottom : ChainingValue)
    {rest stack : List ChainingValue} (h : (left :: rest).reverse = bottom :: stack) :
    rootFold K F right left rest = parentNode K F bottom (stack.foldr (parentCv K F) right) := by
  induction rest generalizing right left stack with
  | nil =>
    obtain ⟨rfl, rfl⟩ := List.cons.inj h
    rfl
  | cons below rest ih =>
    rw [List.reverse_cons] at h
    obtain ⟨hnil, -⟩ | ⟨stack, h', rfl⟩ := List.append_eq_cons_iff.1 h
    · simp at hnil
    · rw [rootFold, ih _ _ h', List.foldr_append]
      rfl

theorem rootNode_of_stack {m : Hasher} {bottom : ChainingValue} {stack : List ChainingValue}
    (h : m.stack = bottom :: stack) :
    rootNode m = parentNode m.key m.flags bottom
      (stack.foldr (parentCv m.key m.flags) (nodeCv (chunkOutputNode m.flags m.chunk))) := by
  rw [rootNode]
  split
  next hnil => rw [h] at hnil; simp at hnil
  next top rest hrev => exact rootFold_eq _ _ _ _ _ (by rw [← hrev, List.reverse_reverse, h])

/-! ### The chunks of an input (R174) -/

/-- The node CV of a chunk with index `i` and bytes `r`. -/
def leafCv (K : ChainingValue) (F : Byte) (i : Nat) (r : List Byte) : ChainingValue :=
  nodeCv (chunkOutputNode F (chunkUpdate F (chunkInit K F (BitVec.ofNat 64 i)) r))

theorem chunkCv_eq_leafCv (K : ChainingValue) (F : Byte) (b : List Byte) (i : Nat) :
    chunkCv K F b i = leafCv K F i ((b.drop (1024 * i)).take 1024) := rfl

theorem chunkCvs_length {K : ChainingValue} {F : Byte} {x : List Byte} {n : Nat} (hx : x.length = 1024 * n) :
    (chunkCvs K F x).length = n := by
  rw [chunkCvs, List.length_map, List.length_range]
  omega

/-- One more chunk, full or not, after `n` full ones. -/
theorem chunkCvs_append (K : ChainingValue) (F : Byte) {x r : List Byte} {n : Nat} (hx : x.length = 1024 * n)
    (hpos : 1 ≤ r.length) (hr : r.length ≤ 1024) :
    chunkCvs K F (x ++ r) = chunkCvs K F x ++ [leafCv K F n r] := by
  have hold : (x.length + 1023) / 1024 = n := by omega
  have hnew : ((x ++ r).length + 1023) / 1024 = n + 1 := by rw [List.length_append]; omega
  rw [chunkCvs, chunkCvs, hold, hnew, List.range_succ, List.map_append, List.map_singleton,
    chunkCv_eq_leafCv, ← hx, List.drop_left, List.take_of_length_le hr]
  refine congrArg (· ++ [leafCv K F n r]) (List.map_congr_left fun i hi => ?_)
  have hin : 1024 * i + 1024 ≤ x.length := by rw [hx]; have := List.mem_range.1 hi; omega
  rw [chunkCv_eq_leafCv, chunkCv_eq_leafCv, List.drop_append_of_le_length (by omega),
    List.take_append_of_le_length (by rw [List.length_drop]; omega)]

/-- The session after the `n` full chunks of `x` and the bytes `r` of the active one. -/
def chunkedHasher (K : ChainingValue) (F : Byte) (n : Nat) (x r : List Byte) : Hasher where
  key := K
  flags := F
  chunk := chunkUpdate F (chunkInit K F (BitVec.ofNat 64 n)) r
  stack := treeStack K F (chunkCvs K F x)

theorem chunkUpdate_chunkInit_nil (K : ChainingValue) (F : Byte) (ctr : Word64) :
    chunkUpdate F (chunkInit K F ctr) [] = chunkInit K F ctr :=
  chunkUpdate_of_fits rfl (Nat.zero_le _)

theorem chunkUpdate_chunkInit_len (K : ChainingValue) (F : Byte) (ctr : Word64) (r : List Byte) :
    (chunkUpdate F (chunkInit K F ctr) r).len = r.length := by
  rw [chunkUpdate_eq_foldl _ _ _ (Nat.zero_le _), (foldl_absorbByte_len _ _ _ (Nat.zero_le _)).1, chunkInit_len,
    Nat.zero_add]

theorem chunkUpdate_chunkInit_counter (K : ChainingValue) (F : Byte) (ctr : Word64) (r : List Byte) :
    (chunkUpdate F (chunkInit K F ctr) r).counter = ctr := by
  rw [chunkUpdate_eq_foldl _ _ _ (Nat.zero_le _)]
  exact List.foldlRecOn (motive := fun c : Chunk => c.counter = ctr) r _ rfl
    fun c hc x _ => (absorbByte_counter F c x).trans hc

theorem chunkedHasher_zero (K : ChainingValue) (F : Byte) : chunkedHasher K F 0 [] [] = freshHasher K F := by
  rw [chunkedHasher, chunkUpdate_chunkInit_nil]
  exact congrArg (Hasher.mk K F _) (treeStack_nil K F)

/-- Bytes absorbed after full chunks, up to a chunk of them, fill the active chunk. -/
theorem foldl_absorb_chunkedHasher (K : ChainingValue) (F : Byte) (n : Nat) (x : List Byte) {r : List Byte}
    (hr : r.length ≤ 1024) : r.foldl Hasher.absorb (chunkedHasher K F n x []) = chunkedHasher K F n x r := by
  have hchunk : (chunkedHasher K F n x []).chunk = chunkInit K F (BitVec.ofNat 64 n) :=
    chunkUpdate_chunkInit_nil K F _
  rw [foldl_absorb_room _ r (hchunk ▸ Nat.zero_le _) (by rwa [hchunk, chunkInit_len, Nat.zero_add]), hchunk,
    chunkedHasher, chunkedHasher, chunkUpdate_eq_foldl F _ r (Nat.zero_le _)]

/-- Pushing the active chunk when it is full: one more full chunk, and an empty active one. -/
theorem nextChunk_chunkedHasher (K : ChainingValue) (F : Byte) {n : Nat} {x r : List Byte} (hn : n < 2 ^ 64)
    (hx : x.length = 1024 * n) (hr : r.length = 1024) :
    (chunkedHasher K F n x r).nextChunk = chunkedHasher K F (n + 1) (x ++ r) [] := by
  have hcounter : (chunkedHasher K F n x r).chunk.counter.toNat = n := by
    rw [chunkedHasher, chunkUpdate_chunkInit_counter, BitVec.toNat_ofNat, Nat.mod_eq_of_lt hn]
  have hcvs := chunkCvs_length (K := K) (F := F) hx
  have hpush := pushCv_treeStack K F (cs := chunkCvs K F x) (leafCv K F n r) (by rwa [hcvs])
  rw [hcvs, ← chunkCvs_append K F hx (by omega) (by omega)] at hpush
  rw [Hasher.nextChunk, hcounter, chunkedHasher, chunkedHasher, chunkUpdate_chunkInit_nil]
  exact congrArg (Hasher.mk K F _) hpush

/-- A session absorbs its input chunk by chunk, pushing each chunk once more input follows it. -/
theorem hasherUpdate_freshHasher (K : ChainingValue) (F : Byte) {n : Nat} {x r : List Byte}
    (hn : n < 2 ^ 64) (hx : x.length = 1024 * n) (hpos : 1 ≤ r.length) (hr : r.length ≤ 1024) :
    hasherUpdate (freshHasher K F) (x ++ r) = chunkedHasher K F n x r := by
  rw [hasherUpdate_of_sized (chunkInit_sized K F 0)]
  induction n generalizing x r with
  | zero =>
    obtain rfl : x = [] := List.eq_nil_of_length_eq_zero hx
    rw [List.nil_append, ← chunkedHasher_zero, foldl_absorb_chunkedHasher K F 0 [] hr]
  | succ n ih =>
    obtain ⟨y, z, rfl, hy, hz⟩ : ∃ y z, x = y ++ z ∧ y.length = 1024 * n ∧ z.length = 1024 :=
      ⟨x.take (1024 * n), x.drop (1024 * n), (List.take_append_drop _ _).symm,
        by rw [List.length_take]; omega, by rw [List.length_drop]; omega⟩
    have hfull : (chunkedHasher K F n y z).chunk.len = chunkLen :=
      (chunkUpdate_chunkInit_len K F _ z).trans hz
    rw [List.foldl_append, ih (by omega) hy (by omega) hz.le,
      absorb_full _ r (List.ne_nil_of_length_pos hpos) hfull, nextChunk_chunkedHasher K F (by omega) hy hz,
      foldl_absorb_chunkedHasher K F _ _ hr]

/-- The root node of a session of two or more chunks is the root of the canonical tree over them. -/
theorem rootNode_chunkedHasher (K : ChainingValue) (F : Byte) {n : Nat} {x r : List Byte}
    (hn : 0 < n) (hx : x.length = 1024 * n) (hpos : 1 ≤ r.length) (hr : r.length ≤ 1024) :
    rootNode (chunkedHasher K F n x r) = canonicalRoot K F (chunkCvs K F (x ++ r)) := by
  have hne : chunkCvs K F x ≠ [] := List.ne_nil_of_length_pos (by rwa [chunkCvs_length hx])
  have hstack : (chunkedHasher K F n x r).stack = _ := treeStack_of_ne_nil K F hne
  rw [rootNode_of_stack hstack, chunkCvs_append K F hx hpos hr, canonicalRoot_append_singleton K F hne]
  exact congrArg (parentNode K F _) (foldr_treeStack K F _ _)

theorem rootNode_hasherUpdate (K : ChainingValue) (F : Byte) {b : List Byte} (hlow : 1024 < b.length)
    (hhigh : b.length ≤ 2 ^ 65) :
    rootNode (hasherUpdate (freshHasher K F) b) = canonicalRoot K F (chunkCvs K F b) := by
  obtain ⟨n, hn⟩ : ∃ n, n = (b.length - 1) / 1024 := ⟨_, rfl⟩
  have hx : (b.take (1024 * n)).length = 1024 * n := by rw [List.length_take]; omega
  have hr : (b.drop (1024 * n)).length = b.length - 1024 * n := List.length_drop
  rw [← List.take_append_drop (1024 * n) b, hasherUpdate_freshHasher K F (by omega) hx (by omega) (by omega),
    rootNode_chunkedHasher K F (by omega) hx (by omega) (by omega)]

/-! ### The obligation -/

/-- Settles O32: the stack of a session mirrors its full chunks, and folding it under the active chunk is the
canonical tree over all of them; the examples split at 1, 2 and 4 chunks. -/
theorem canonicalTree : Obligations.CanonicalTree := by
  refine fun K F => ⟨fun l r => ⟨rfl, ?_, ?_, rfl, rfl, rfl⟩,
    fun b hlow hhigh => rootNode_hasherUpdate K F hlow hhigh, fun c0 c1 c2 c3 c4 => ?_⟩
  · rw [parentNode, List.length_append, bufBytes_length, bufBytes_length]
  · rw [messageWords_parentNode, Vector.toList_append]
  · have h2 : leftSize 2 = 1 := by decide
    have h3 : leftSize 3 = 2 := by decide
    have h4 : leftSize 4 = 2 := by decide
    have h5 : leftSize 5 = 4 := by decide
    refine ⟨?_, ?_, ?_⟩ <;> simp [canonicalRoot, subtreeCv, h2, h3, h4, h5]

end Sys2Proof.Machine
end

section
/-! SUPPORT. The obligation about session_start and the commands that use it (43_session.md R208), and the laws the
session commands need: one equation for each way a command of R204 to R207, or COMPRESS, ends. -/

namespace Sys2Proof.Machine

/-! ### How the session commands end (R204 to R207) -/

theorem exec_deriveMaterial_of_none {s : State} (h : s.mode = .none) :
    exec .deriveMaterial s = .next (s.raise .noSession) := if_pos h

theorem exec_deriveMaterial_of_otherMode {s : State} (hnone : s.mode ≠ .none) (hctx : s.mode ≠ .deriveCtx) :
    exec .deriveMaterial s = .next (s.raise .state) := (if_neg hnone).trans (if_pos hctx)

theorem exec_deriveMaterial_of_deriveCtx {s : State} (h : s.mode = .deriveCtx) :
    exec .deriveMaterial s
      = .next (s.sessionStart (bufWords 8 (digest32 s.session)) deriveKeyMaterial .deriveMat).complete :=
  (if_neg (by simp [h])).trans (if_neg (not_not_intro h))

theorem exec_reset_of_none {s : State} (h : s.mode = .none) : exec .reset s = .next (s.raise .noSession) :=
  if_pos h

theorem exec_reset_of_deriveCtx {s : State} (h : s.mode = .deriveCtx) : exec .reset s = .next (s.raise .state) :=
  (if_neg (by simp [h])).trans (if_pos h)

theorem exec_reset_of_session {s : State} (hnone : s.mode ≠ .none) (hctx : s.mode ≠ .deriveCtx) :
    exec .reset s
      = .next { s with
          session := freshHasher s.session.key
            (s.session.flags &&& (keyedHash ||| deriveKeyMaterial)) }.complete :=
  (if_neg hnone).trans (if_neg hctx)

theorem exec_update_of_none {s : State} {len : Byte} (hlen : len.toNat ≤ maxLen) (h : s.mode = .none) :
    exec (.update len) s = .next (s.raise .noSession) := (if_neg (Nat.not_lt.2 hlen)).trans (if_pos h)

theorem exec_update_of_overflow {s : State} {len : Byte} (hlen : len.toNat ≤ maxLen) (hnone : s.mode ≠ .none)
    (h : pushOverflows s.session len.toNat) : exec (.update len) s = .next (s.raise .capacity) :=
  (if_neg (Nat.not_lt.2 hlen)).trans ((if_neg hnone).trans (if_pos h))

theorem exec_update_of_fits {s : State} {len : Byte} (hlen : len.toNat ≤ maxLen) (hnone : s.mode ≠ .none)
    (h : ¬ pushOverflows s.session len.toNat) :
    exec (.update len) s
      = .next { s with session := hasherUpdate s.session ((bufBytes s.din).take len.toNat) }.complete :=
  (if_neg (Nat.not_lt.2 hlen)).trans ((if_neg hnone).trans (if_neg h))

theorem exec_finalize_of_none {s : State} {len : Byte} (hlen : len.toNat ≤ maxLen) (h : s.mode = .none) :
    exec (.finalize len) s = .next (s.raise .noSession) := (if_neg (Nat.not_lt.2 hlen)).trans (if_pos h)

theorem exec_compress_of_le (s : State) {len : Byte} (flg : Byte) (hlen : len.toNat ≤ maxLen) :
    exec (.compress len flg) s
      = .next { s with dout := compressWide s.ccv (bufBytes s.din) len.toNat s.ctr flg }.complete :=
  if_neg (Nat.not_lt.2 hlen)

/-! ### session_start (R208) -/

theorem freshHasher_fresh (k : ChainingValue) (f : Byte) : (freshHasher k f).Fresh k f :=
  ⟨rfl, rfl, rfl, rfl, rfl, rfl, rfl, rfl⟩

/-- `session_start` writes the session and its mode; `t` is the state it leaves. -/
theorem sessionStart_writes (s : State) (k : ChainingValue) (f : Byte) (m : Mode) :
    let t := s.sessionStart k f m
    t.session.Fresh k f ∧ t.mode = m ∧ s.SameOperands t ∧ t.dout = s.dout ∧ t.mhash = s.mhash
      ∧ t.err = s.err ∧ t.chk = s.chk ∧ t.wbusy = s.wbusy ∧ t.running = s.running ∧ s.SameHost t :=
  ⟨freshHasher_fresh k f, by simp [State.SameOperands, State.SameHost]⟩

/-- A command that is `session_start` writes the session, its mode, ERR and BUSY. -/
theorem sessionStart_complete_writes (s : State) (k : ChainingValue) (f : Byte) (m : Mode) :
    let t := (s.sessionStart k f m).complete
    t.Completed ∧ t.session.Fresh k f ∧ t.mode = m ∧ s.SameOperands t ∧ t.dout = s.dout ∧ t.mhash = s.mhash
      ∧ t.chk = s.chk ∧ t.wbusy = s.wbusy ∧ s.SameHost t :=
  ⟨⟨rfl, rfl⟩, freshHasher_fresh k f, by simp [State.SameOperands, State.SameHost]⟩

/-! ### The obligation -/

/-- Settles O11: each of the four commands is `session_start` followed by its completion. -/
theorem initCommandsStartSessions : Obligations.InitCommandsStartSessions := fun s =>
  ⟨sessionStart_writes s, fun hctx => ⟨_, exec_deriveMaterial_of_deriveCtx hctx⟩,
    ⟨_, exec_init s, sessionStart_complete_writes s iv 0x00 .default⟩,
    ⟨_, exec_initKeyed s, sessionStart_complete_writes s s.key keyedHash .keyed⟩,
    ⟨_, exec_initDerive s, sessionStart_complete_writes s iv deriveKeyContext .deriveCtx⟩⟩

end Sys2Proof.Machine
end

section
/-! SUPPORT. The obligation about the mode transitions (43_session.md R209), and the laws it needs: a decoded
command is well formed, no command word leads from a session back to NONE, and of the host's statements only
the reset input writes the session or its mode. -/

namespace Sys2Proof

/-! ### Decoded commands (R95) -/

/-- A row's command is well formed when the length is legal where the row has one. -/
theorem opTable_make_wellFormed (len flg : Byte) :
    ∀ r ∈ opTable, (r.cls ≠ .n → len.toNat ≤ maxLen) → (r.make len flg).WellFormed := by
  simp [opTable]

theorem decode_wellFormed {w : Word} {i : Instr} (h : decode w = .ok i) : i.WellFormed := by
  by_cases hrsv : rsvField w = 0
  · cases hrow : rowOf (opField w) with
    | none => simp [decode_of_rowOf_none w hrow] at h
    | some r =>
      rw [decode_of_rowOf_some w r hrsv hrow] at h
      split_ifs at h with _ _ hlen
      obtain rfl := Except.ok.inj h
      exact opTable_make_wellFormed _ _ r (rowOf_eq_some hrow).1 fun hcls =>
        Nat.not_lt.1 fun hlt => hlen ⟨hcls, hlt⟩
  · simp [decode_of_rsv w hrsv] at h

end Sys2Proof

namespace Sys2Proof.Machine

/-! ### A command's row of the table (R209) -/

/-- The step from `s` to `t` by command `i` is as the table of R209 says: the mode, the two errors its cells
name, and the session where the command is one that leaves it alone. -/
def FollowsTable (i : Instr) (s t : State) : Prop :=
  t.mode = modeAfter i s.mode
  ∧ (t.err = .noSession ↔ s.mode = .none ∧
      match i with
      | .deriveMaterial | .reset | .update _ | .finalize _ => True
      | .init | .initKeyed | .initDerive | .compress _ _ | .mineHash | .mineCheck | .mineTry => False)
  ∧ (t.err = .state ↔
      (i = .deriveMaterial ∧ s.mode ≠ .none ∧ s.mode ≠ .deriveCtx) ∨ (i = .reset ∧ s.mode = .deriveCtx))
  ∧ (match i with
     | .finalize _ | .compress _ _ | .mineHash | .mineCheck | .mineTry => t.session = s.session
     | .init | .initKeyed | .initDerive | .deriveMaterial | .reset | .update _ => True)

theorem modeAfter_deriveMaterial_of_ne {m : Mode} (h : m ≠ .deriveCtx) : modeAfter .deriveMaterial m = m := by
  revert h
  cases m <;> decide

theorem modeAfter_ne_none (i : Instr) {m : Mode} (h : m ≠ .none) : modeAfter i m ≠ .none := by
  cases i with
  | init | initKeyed | initDerive => nofun
  | deriveMaterial =>
    revert h
    cases m <;> decide
  | reset | update | finalize | compress | mineHash | mineCheck | mineTry => exact h

theorem exec_followsTable (i : Instr) (s : State) (hwf : i.WellFormed) :
    ∃ t, exec i s = .next t ∧ FollowsTable i s t := by
  cases i with
  | init => exact ⟨_, exec_init s, by simp [FollowsTable, modeAfter]⟩
  | initKeyed => exact ⟨_, exec_initKeyed s, by simp [FollowsTable, modeAfter]⟩
  | initDerive => exact ⟨_, exec_initDerive s, by simp [FollowsTable, modeAfter]⟩
  | deriveMaterial =>
    by_cases hnone : s.mode = .none
    · exact ⟨_, exec_deriveMaterial_of_none hnone, by simp [FollowsTable, modeAfter, hnone]⟩
    by_cases hctx : s.mode = .deriveCtx
    · exact ⟨_, exec_deriveMaterial_of_deriveCtx hctx, by simp [FollowsTable, modeAfter, hctx]⟩
    · exact ⟨_, exec_deriveMaterial_of_otherMode hnone hctx,
        by simp [FollowsTable, modeAfter_deriveMaterial_of_ne, hnone, hctx]⟩
  | reset =>
    by_cases hnone : s.mode = .none
    · exact ⟨_, exec_reset_of_none hnone, by simp [FollowsTable, modeAfter, hnone]⟩
    by_cases hctx : s.mode = .deriveCtx
    · exact ⟨_, exec_reset_of_deriveCtx hctx, by simp [FollowsTable, modeAfter, hctx]⟩
    · exact ⟨_, exec_reset_of_session hnone hctx, by simp [FollowsTable, modeAfter, hnone, hctx]⟩
  | update len =>
    by_cases hnone : s.mode = .none
    · exact ⟨_, exec_update_of_none hwf hnone, by simp [FollowsTable, modeAfter, hnone]⟩
    by_cases hover : pushOverflows s.session len.toNat
    · exact ⟨_, exec_update_of_overflow hwf hnone hover, by simp [FollowsTable, modeAfter, hnone]⟩
    · exact ⟨_, exec_update_of_fits hwf hnone hover, by simp [FollowsTable, modeAfter, hnone]⟩
  | finalize len =>
    by_cases hnone : s.mode = .none
    · exact ⟨_, exec_finalize_of_none hwf hnone, by simp [FollowsTable, modeAfter, hnone]⟩
    by_cases hrange : OutOfRange Config.multiChunkXof s.session (pairNat s.seekHi s.seekLo) len.toNat
    · exact ⟨_, exec_finalize_of_error s hwf hnone (finalizeBytes_of_outOfRange hrange),
        by simp [FollowsTable, modeAfter, hnone]⟩
    · exact ⟨_, exec_finalize_of_ok s hwf hnone (finalizeBytes_of_inRange hrange),
        by simp [FollowsTable, modeAfter, hnone]⟩
  | compress len flg => exact ⟨_, exec_compress_of_le s flg hwf, by simp [FollowsTable, modeAfter]⟩
  | mineHash => exact ⟨_, exec_mineHash s, by simp [FollowsTable, modeAfter]⟩
  | mineCheck => exact ⟨_, exec_mineCheck s, by simp [FollowsTable, modeAfter]⟩
  | mineTry => exact ⟨_, exec_mineTry s, by simp [FollowsTable, modeAfter]⟩

/-- No command word, legal or not, leads back to NONE. -/
theorem runWord_mode_ne_none {w : Word} {s t : State} (h : runWord w s = .next t) (hs : s.mode ≠ .none) :
    t.mode ≠ .none := by
  cases hd : decode w with
  | error e =>
    rw [runWord_error w s e hd] at h
    obtain rfl := Host.Outcome.next.inj h
    exact hs
  | ok i =>
    obtain ⟨u, hu, hmode, -⟩ := exec_followsTable i s (decode_wellFormed hd)
    rw [runWord_ok w s i hd, hu] at h
    obtain rfl := Host.Outcome.next.inj h
    rw [hmode]
    exact modeAfter_ne_none i hs

/-! ### The host's statements and the session -/

theorem writeIdle_sameSession (s : State) (off : Nat) (v : Word) : s.SameSession (writeIdle s off v) := by
  unfold writeIdle
  split
  · exact ⟨rfl, rfl⟩
  · split <;> exact ⟨rfl, rfl⟩
  · obtain ⟨hmode, hsession, -⟩ := writeReg_frame s (regAt off) v
    exact ⟨hmode, hsession⟩

theorem writeAt_sameSession (s : State) (off : Nat) (v : Word) : s.SameSession (writeAt s off v) := by
  cases hbusy : s.busy with
  | true => rw [writeAt_of_busy s off v hbusy]; exact ⟨rfl, rfl⟩
  | false => rw [writeAt_of_idle s off v hbusy]; exact writeIdle_sameSession s off v

theorem memRead_sameSession {addr : Nat} {width : AccessWidth} {s t : State}
    (h : memRead addr width s = .next t) : s.SameSession t := by
  unfold memRead at h
  split_ifs at h <;> obtain rfl := Host.Outcome.next.inj h
  · obtain ⟨v, f, hread⟩ := readAt_frame s (addr - Config.base)
    rw [hread]
    exact ⟨rfl, rfl⟩
  · exact ⟨rfl, rfl⟩

theorem memWrite_sameSession {addr : Nat} {width : AccessWidth} {v : Word} {s t : State}
    (h : memWrite addr width v s = .next t) : s.SameSession t := by
  unfold memWrite at h
  split_ifs at h <;> obtain rfl := Host.Outcome.next.inj h
  · exact writeAt_sameSession s (addr - Config.base) v
  · exact ⟨rfl, rfl⟩

theorem serve_sameSession {h : HostStmt} {s t : State} (hserve : serve h s = .next t) (hreset : h ≠ .resetInput) :
    s.SameSession t := by
  cases h with
  | read addr width => exact memRead_sameSession hserve
  | write addr width v => exact memWrite_sameSession hserve
  | resetInput => exact absurd rfl hreset
  | idle =>
    obtain rfl := Host.Outcome.next.inj hserve
    exact ⟨rfl, rfl⟩
  | wait =>
    obtain rfl := Host.Outcome.next.inj hserve
    split <;> exact ⟨rfl, rfl⟩
  | skipIf mask n =>
    obtain rfl := Host.Outcome.next.inj hserve
    split <;> exact ⟨rfl, rfl⟩

theorem hostCycle_sameSession {s t : State} (h : hostCycle s = .next t)
    (hreset : s.host.head? ≠ some .resetInput) : s.SameSession t := by
  unfold hostCycle at h
  split at h
  next =>
    obtain rfl := Host.Outcome.next.inj h
    exact ⟨rfl, rfl⟩
  next stmt rest hhost =>
    have hstmt : stmt ≠ .resetInput := by simpa [hhost] using hreset
    exact (serve_sameSession h hstmt :)

/-- A step that completes no command and serves no reset input keeps the session and its mode. -/
theorem step_sameSession {s t : State} (h : step s = .next t) (hdue : ∀ w, s.running ≠ some ⟨w, 0⟩)
    (hreset : s.host.head? ≠ some .resetInput) : s.SameSession t := by
  match hrun : s.running with
  | none =>
    rw [step_idle s hrun] at h
    exact hostCycle_sameSession h hreset
  | some ⟨w, 0⟩ => exact absurd hrun (hdue w)
  | some ⟨w, n + 1⟩ =>
    rw [step_running s w n hrun] at h
    exact (hostCycle_sameSession h hreset :)

/-- Only the reset input leads back to NONE. -/
theorem step_to_none_of_resetInput {s t : State} (h : step s = .next t) (ht : t.mode = .none)
    (hs : s.mode ≠ .none) : s.host.head? = some .resetInput := by
  by_cases hdue : ∃ w, s.running = some ⟨w, 0⟩
  · obtain ⟨w, hw⟩ := hdue
    rw [step_of_due s w hw] at h
    exact absurd ht (runWord_mode_ne_none h hs)
  · by_contra hreset
    obtain ⟨hmode, -⟩ := step_sameSession h (not_exists.1 hdue) hreset
    exact hs (hmode ▸ ht)

/-! ### The obligation -/

/-- Settles O42: every command follows its row of the table, and a step to NONE is a reset input, since no
command word leads there and no other host statement writes the mode. -/
theorem modeTransitionTable : Obligations.ModeTransitionTable :=
  ⟨exec_followsTable, fun _ _ => step_to_none_of_resetInput⟩

end Sys2Proof.Machine
end

section
/-! SUPPORT. The obligations about the mining adapter (44_mining.md R230, R232, R236), and the laws they need: the
bytes of the working header, and the difficulty comparison as the first difference and as an order of numbers. -/

namespace Sys2Proof.Machine

/-! ### The working header (R230) -/

/-- The four writes replace exactly the bytes 140 to 143 of HDR by the nonce. -/
theorem workHeader_eq_append (s : State) :
    workHeader s = (bufBytes s.hdr).take 140 ++ (leBytes s.nonce ++ (bufBytes s.hdr).drop 144) := by
  have hlen : (bufBytes s.hdr).length = 180 := bufBytes_length s.hdr
  simp only [workHeader, nonceOffset]
  generalize bufBytes s.hdr = b at hlen
  have hsplit : b = b.take 140 ++ b[140] :: b[141] :: b[142] :: b[143] :: b.drop 144 := by simp
  have htake : (b.take 140).length = 140 := by rw [List.length_take, hlen]; rfl
  conv_lhs => rw [hsplit]
  simp only [List.set_append_right, htake, le_refl, Nat.reduceLeDiff, Nat.reduceSub, List.set_cons_zero,
    List.set_cons_succ, leBytes, List.cons_append, List.nil_append]

theorem workHeader_length (s : State) : (workHeader s).length = 180 := by
  simp [workHeader]

theorem drop_take_workHeader (s : State) : ((workHeader s).drop 140).take 4 = leBytes s.nonce := by
  have htake : ((bufBytes s.hdr).take 140).length = 140 := by simp
  rw [workHeader_eq_append, List.drop_left' htake, List.take_left' (leBytes_length _)]

theorem byteAt_workHeader_nonce (s : State) {j : Nat} (h : j < 4) :
    byteAt (workHeader s) (140 + j) = wordByte s.nonce j := by
  rw [← byteAt_leBytes _ h, ← drop_take_workHeader]
  simp [byteAt, h]

theorem byteAt_workHeader_hdr (s : State) {k : Nat} (hk : k < 180) (hout : k < 140 ∨ 143 < k) :
    byteAt (workHeader s) k = arrayByte s.hdr k := by
  have hne : ∀ i : Nat, 140 ≤ i → i ≤ 143 → i ≠ k := by omega
  rw [← byteAt_bufBytes_eq_arrayByte s.hdr hk]
  simp [workHeader, nonceOffset, byteAt, List.getElem?_set_ne, hne]

/-! ### The comparison as the first difference (R232) -/

theorem byteAt_cons_zero (x : Byte) (b : List Byte) : byteAt (x :: b) 0 = x := rfl

theorem byteAt_cons_succ (x : Byte) (b : List Byte) (i : Nat) : byteAt (x :: b) (i + 1) = byteAt b i := rfl

theorem meets_cons_of_gt {x y : Byte} (h t : List Byte) (hyx : y < x) : meets (x :: h) (y :: t) = false :=
  if_pos hyx

theorem meets_cons_of_lt {x y : Byte} (h t : List Byte) (hxy : x < y) : meets (x :: h) (y :: t) = true := by
  rw [meets, if_neg (BitVec.lt_asymm hxy), if_pos hxy]

theorem meets_cons_self (x : Byte) (h t : List Byte) : meets (x :: h) (x :: t) = meets h t := by
  rw [meets, if_neg (BitVec.lt_irrefl x), if_neg (BitVec.lt_irrefl x)]

/-- `h` and `t` agree before byte `i`, where `h`'s byte is the greater. -/
def ExceedsAt (h t : List Byte) (i : Nat) : Prop :=
  (∀ j < i, byteAt h j = byteAt t j) ∧ byteAt t i < byteAt h i

theorem exceedsAt_cons_zero {x y : Byte} {h t : List Byte} : ExceedsAt (x :: h) (y :: t) 0 ↔ y < x := by
  simp [ExceedsAt, byteAt_cons_zero]

theorem exceedsAt_cons_succ {x y : Byte} {h t : List Byte} {i : Nat} :
    ExceedsAt (x :: h) (y :: t) (i + 1) ↔ x = y ∧ ExceedsAt h t i := by
  simp only [ExceedsAt, Nat.forall_lt_succ_left, byteAt_cons_zero, byteAt_cons_succ, and_assoc]

theorem exists_exceedsAt_cons {x y : Byte} {h t : List Byte} {n : Nat} :
    (∃ i < n + 1, ExceedsAt (x :: h) (y :: t) i) ↔ y < x ∨ x = y ∧ ∃ i < n, ExceedsAt h t i := by
  simp only [Nat.exists_lt_succ_left, exceedsAt_cons_zero, exceedsAt_cons_succ, and_left_comm (b := _ = _),
    exists_and_left]

theorem meets_eq_false_iff {h t : List Byte} (hlen : h.length = t.length) :
    meets h t = false ↔ ∃ i < h.length, ExceedsAt h t i := by
  induction h generalizing t with
  | nil => simp [meets]
  | cons x h ih =>
    match t, hlen with
    | y :: t, hlen =>
      rw [List.length_cons, exists_exceedsAt_cons]
      rcases BitVec.lt_trichotomy x y with hlt | rfl | hgt
      · simp [meets_cons_of_lt h t hlt, BitVec.lt_asymm hlt, BitVec.ne_of_lt hlt]
      · simp [meets_cons_self, ih (Nat.succ.inj hlen), BitVec.lt_irrefl]
      · simp [meets_cons_of_gt h t hgt, hgt]

/-! ### The comparison as an order of numbers (R10, R232) -/

/-- `BE256` (R10) for a string of `n` bytes, so that it can be proved about by induction on the string. -/
def beSum (n : Nat) (b : List Byte) : Nat :=
  ((List.range n).map fun i => (byteAt b i).toNat * 2 ^ (8 * (n - 1 - i))).sum

theorem be256_eq_beSum (b : List Byte) : be256 b = beSum 32 b := rfl

theorem beSum_cons (n : Nat) (x : Byte) (b : List Byte) :
    beSum (n + 1) (x :: b) = x.toNat * 2 ^ (8 * n) + beSum n b := by
  simp only [beSum, List.range_succ_eq_map, List.map_cons, List.map_map, List.sum_cons, Function.comp_def,
    byteAt_cons_zero, byteAt_cons_succ, Nat.add_sub_cancel, Nat.sub_zero, Nat.succ_eq_add_one,
    Nat.sub_sub, Nat.add_comm 1]

theorem beSum_lt (b : List Byte) : beSum b.length b < 2 ^ (8 * b.length) := by
  induction b with
  | nil => simp [beSum]
  | cons x b ih =>
    rw [List.length_cons, beSum_cons]
    calc x.toNat * 2 ^ (8 * b.length) + beSum b.length b
        < (x.toNat + 1) * 2 ^ (8 * b.length) := by rw [Nat.succ_mul x.toNat]; omega
      _ ≤ 2 ^ 8 * 2 ^ (8 * b.length) := Nat.mul_le_mul_right _ x.isLt
      _ = 2 ^ (8 * (b.length + 1)) := by rw [← Nat.pow_add]; congr 1; omega

/-- A smaller first byte makes the smaller number, whatever bytes follow. -/
theorem beSum_cons_lt_of_lt {x y : Byte} (h t : List Byte) (hxy : x < y) :
    beSum (h.length + 1) (x :: h) < beSum (h.length + 1) (y :: t) := by
  have hrest := beSum_lt h
  rw [beSum_cons, beSum_cons]
  calc x.toNat * 2 ^ (8 * h.length) + beSum h.length h
      < (x.toNat + 1) * 2 ^ (8 * h.length) := by rw [Nat.succ_mul x.toNat]; omega
    _ ≤ y.toNat * 2 ^ (8 * h.length) := Nat.mul_le_mul_right _ hxy
    _ ≤ y.toNat * 2 ^ (8 * h.length) + beSum h.length t := Nat.le_add_right _ _

theorem meets_iff_beSum_le {h t : List Byte} (hlen : h.length = t.length) :
    meets h t = true ↔ beSum h.length h ≤ beSum h.length t := by
  induction h generalizing t with
  | nil => simp [meets, beSum]
  | cons x h ih =>
    match t, hlen with
    | y :: t, hlen =>
      have hlen' : h.length = t.length := Nat.succ.inj hlen
      rcases BitVec.lt_trichotomy x y with hlt | rfl | hgt
      · simp [meets_cons_of_lt h t hlt, (beSum_cons_lt_of_lt h t hlt).le]
      · simp [meets_cons_self, ih hlen', beSum_cons]
      · have hsum := beSum_cons_lt_of_lt t h hgt
        simp [meets_cons_of_gt h t hgt, hlen', hsum]

/-! ### The obligations -/

/-- Settles O33: the working header is HDR with the nonce's bytes spliced in, and the mining commands write
MHASH and CHECK alone. -/
theorem nonceInjection : Obligations.NonceInjection := by
  refine ⟨fun s => ⟨workHeader_length s, fun _ => byteAt_workHeader_nonce s,
    fun _ => byteAt_workHeader_hdr s, ?_⟩, fun s hnonce => ?_⟩
  · simp [exec_mineHash, exec_mineCheck, exec_mineTry]
  · rw [drop_take_workHeader, hnonce]
    rfl

/-- Settles O36: both readings hold for strings of any equal length, by induction along the comparison. -/
theorem meetsIsBigEndianOrder : Obligations.MeetsIsBigEndianOrder := by
  refine ⟨fun h t hh ht => ?_, fun v => ⟨byteAt_bufBytes v 0 (by decide), byteAt_bufBytes v 31 (by decide)⟩⟩
  have hlen : h.length = t.length := hh.trans ht.symm
  have horder := meets_iff_beSum_le hlen
  have hfirst := meets_eq_false_iff hlen
  rw [hh] at horder hfirst
  rw [be256_eq_beSum, be256_eq_beSum]
  exact ⟨horder, hfirst⟩

end Sys2Proof.Machine
end

section
/-! SUPPORT. The obligations about failing commands and CHECK (60_exceptions.md R250, R252, R254), and the laws they
need: the two ways a command word ends, and that ERR is never read. -/

namespace Sys2Proof.Machine

/-! ### The two ways a command ends (R250, R252) -/

/-- What a command run from `s` may answer: its error raised on `s` as it stands, or the completion of a state that
has another CHECK only where `mines` holds (R254). -/
inductive Ends (s : State) (mines : Prop) : Result → Prop
  | raised {e : Err} (he : e ≠ .ok) : Ends s mines (.next (s.raise e))
  | completed {t : State} (hchk : t.chk ≠ s.chk → mines) : Ends s mines (.next t.complete)

/-- A check and what follows it. -/
theorem Ends.ite {s : State} {mines c : Prop} [Decidable c] {a b : Result} (ha : Ends s mines a)
    (hb : Ends s mines b) : Ends s mines (if c then a else b) := by
  split
  · exact ha
  · exact hb

/-- A command that leaves CHECK alone completes. -/
theorem Ends.completed_of_chk_eq {s t : State} {mines : Prop} (h : t.chk = s.chk) :
    Ends s mines (.next t.complete) := .completed fun hne => absurd h hne

theorem exec_finalize_ends (len : Byte) (s : State) (mines : Prop) : Ends s mines (exec (.finalize len) s) := by
  refine .ite (.raised nofun) (.ite (.raised nofun) ?_)
  cases hbytes : finalizeBytes Config.multiChunkXof s.session s.seek.toNat len.toNat with
  | error e =>
    obtain ⟨rfl, -⟩ := (finalizeBytes_eq_error_iff _ _ _ _ e).1 hbytes
    exact .raised nofun
  | ok out => exact .completed_of_chk_eq rfl

/-- Every check of a command comes before its first write, and of the commands two write CHECK. -/
theorem exec_ends (i : Instr) (s : State) : Ends s (i = .mineCheck ∨ i = .mineTry) (exec i s) := by
  cases i with
  | init | initKeyed | initDerive | mineHash => exact .completed_of_chk_eq rfl
  | deriveMaterial | reset => exact .ite (.raised nofun) (.ite (.raised nofun) (.completed_of_chk_eq rfl))
  | update len =>
    exact .ite (.raised nofun) (.ite (.raised nofun) (.ite (.raised nofun) (.completed_of_chk_eq rfl)))
  | finalize len => exact exec_finalize_ends len s _
  | compress len flg => exact .ite (.raised nofun) (.completed_of_chk_eq rfl)
  | mineCheck => exact .completed fun _ => .inl rfl
  | mineTry => exact .completed fun _ => .inr rfl

theorem Err.ofDecode_ne_ok (e : DecodeError) : Err.ofDecode e ≠ .ok := by
  cases e <;> decide

/-- Every command word ends as its command does, and one that does not decode raises its error (R94). -/
theorem runWord_ends (w : Word) (s : State) :
    Ends s (decode w = .ok .mineCheck ∨ decode w = .ok .mineTry) (runWord w s) := by
  cases hd : decode w with
  | error e =>
    rw [runWord_error w s e hd]
    exact .raised (Err.ofDecode_ne_ok e)
  | ok i =>
    rw [runWord_ok w s i hd]
    simpa using exec_ends i s

theorem Ends.only_reports {s : State} {mines : Prop} {o : Result} (h : Ends s mines o) :
    ∃ t, o = .next t ∧ t.running = none ∧ (t.err ≠ .ok → t = s.failed t.err) := by
  cases h with
  | raised => exact ⟨_, rfl, rfl, fun _ => rfl⟩
  | completed => exact ⟨_, rfl, rfl, fun hne => absurd rfl hne⟩

theorem Ends.of_chk_ne {s t : State} {mines : Prop} (h : Ends s mines (.next t)) (hne : t.chk ≠ s.chk) :
    t.err = .ok ∧ mines := by
  cases h with
  | raised => exact absurd rfl hne
  | completed hchk => exact ⟨rfl, hchk hne⟩

/-! ### ERR is never read (R252) -/

/-- The commands read other fields alone, and each of their ends overwrites ERR. -/
theorem exec_setErr (i : Instr) (s : State) (e : Err) : exec i { s with err := e } = exec i s := by
  cases i <;> rfl

theorem runWord_setErr (w : Word) (s : State) (e : Err) : runWord w { s with err := e } = runWord w s := by
  cases hd : decode w with
  | error d =>
    rw [runWord_error w _ d hd, runWord_error w s d hd]
    rfl
  | ok i => rw [runWord_ok w _ i hd, runWord_ok w s i hd, exec_setErr]

/-! ### The obligations -/

/-- Settles O8: a command word raises on the state as it was or completes, and never reads ERR. -/
theorem failingCommandOnlyReports : Obligations.FailingCommandOnlyReports := fun w s =>
  ⟨(runWord_ends w s).only_reports, runWord_setErr w s⟩

/-- Settles O41: a raise keeps CHECK, and only the two commands complete with another one. -/
theorem checkChangedOnlyByMining : Obligations.CheckChangedOnlyByMining := fun w s _ h =>
  Ends.of_chk_ne (h ▸ runWord_ends w s)

end Sys2Proof.Machine
end

section
/-! SUPPORT. The obligations about host accesses while BUSY = 1 (70_reset_and_hazards.md R284, R285), and the laws
they need: every word of the window is a register, and ID and STATUS read as themselves at any time. -/

namespace Sys2Proof.Machine

/-- Every word offset of the window is a register's (R22), so a law about an access by name holds at each of them. -/
theorem exists_offset_eq {off : Nat} (hlt : off < 512) (halign : off % 4 = 0) : ∃ r : RegName, r.offset = off := by
  have hword : 4 * (off / 4) = off := by omega
  exact ⟨regAt (4 * (off / 4)), (offset_regAt ⟨off / 4, by omega⟩).trans hword⟩

/-- A read of ID or STATUS answers the register's value, whatever BUSY says (R285). -/
theorem memRead_id_or_status (s : State) {r : RegName} (hr : r = .id ∨ r = .status) :
    memRead (Config.base + r.offset) .w32 s = .next { s with answer := some (.data (readReg s r)) } := by
  have hnotFree : ¬(s.busy = true ∧ r.offset ≠ RegName.id.offset ∧ r.offset ≠ RegName.status.offset) := by
    rintro ⟨-, hid, hstatus⟩
    rcases hr with rfl | rfl
    · exact hid rfl
    · exact hstatus rfl
  have hread : readAt s r.offset = s.answerWith (.data (readReg s (regAt r.offset))) := if_neg hnotFree
  rw [memRead_reg, hread, regAt_offset]
  rfl

/-! ### The obligations -/

/-- Settles O52: the offset is a register's, and a write of any register while busy is dropped. -/
theorem writesWhileBusyAreDropped : Obligations.WritesWhileBusyAreDropped := by
  intro s off v hbusy hlt halign
  obtain ⟨r, rfl⟩ := exists_offset_eq hlt halign
  exact memWrite_reg_of_busy s r v hbusy

/-- Settles O53: ID and STATUS answer their values, and the read of any other register writes only the answer and
the freshness counter. -/
theorem readsWhileBusy : Obligations.ReadsWhileBusy := by
  intro s hbusy
  refine ⟨memRead_id_or_status s (.inl rfl), memRead_id_or_status s (.inr rfl), (statusWord_busy s).trans hbusy, ?_⟩
  intro off hlt halign _ _
  obtain ⟨r, rfl⟩ := exists_offset_eq hlt halign
  obtain ⟨v, f, hread⟩ := readAt_frame s r.offset
  exact ⟨v, f, by rw [memRead_reg, hread]⟩

end Sys2Proof.Machine
end

section
/-! SUPPORT. The obligations about encoding (30_encoding.md R90 to R98), and the laws they need: a word is its four
fields, when a row of the opcode map selects a word, and what a selected word decodes to. -/

namespace Sys2Proof

/-! ### A command word and its fields (R90, R98) -/

theorem word_toNat_eq_fields (w : Word) :
    w.toNat = (opField w).toNat + 256 * (lenField w).toNat + 65536 * (flgField w).toNat
      + 16777216 * (rsvField w).toNat := by
  rw [opField_toNat, lenField_toNat, flgField_toNat, rsvField_toNat]
  omega

theorem word_eq_iff_fields {w w' : Word} :
    w = w' ↔ rsvField w = rsvField w' ∧ opField w = opField w' ∧ lenField w = lenField w'
      ∧ flgField w = flgField w' := by
  refine ⟨fun h => by simp [h], fun ⟨hrsv, hop, hlen, hflg⟩ => BitVec.eq_of_toNat_eq ?_⟩
  rw [word_toNat_eq_fields w, word_toNat_eq_fields w', hop, hlen, hflg, hrsv]

@[simp] theorem opField_and (w m : Word) : opField (w &&& m) = opField w &&& opField m :=
  BitVec.extractLsb'_and
@[simp] theorem lenField_and (w m : Word) : lenField (w &&& m) = lenField w &&& lenField m :=
  BitVec.extractLsb'_and
@[simp] theorem flgField_and (w m : Word) : flgField (w &&& m) = flgField w &&& flgField m :=
  BitVec.extractLsb'_and
@[simp] theorem rsvField_and (w m : Word) : rsvField (w &&& m) = rsvField w &&& rsvField m :=
  BitVec.extractLsb'_and

/-- The four fields of a word put together from OP, LEN and FLG. -/
theorem encodeFields_fields (op len flg : Byte) :
    rsvField (encodeFields op len flg) = 0 ∧ opField (encodeFields op len flg) = op
      ∧ lenField (encodeFields op len flg) = len ∧ flgField (encodeFields op len flg) = flg := by
  refine ⟨?_, ?_, Laws.SelectsRow.lenField_encodeFields op len flg, Laws.SelectsRow.flgField_encodeFields op len flg⟩
  all_goals
    apply BitVec.eq_of_getLsbD_eq
    intro i hi
    simp only [encodeFields, rsvField, opField, BitVec.getLsbD_extractLsb', BitVec.getLsbD_or,
      BitVec.getLsbD_setWidth, BitVec.getLsbD_shiftLeft]
    interval_cases i <;> simp

/-- A word whose reserved bits are 0 is the encoding of its own fields. -/
theorem encodeFields_of_rsv_zero {w : Word} (h : rsvField w = 0) :
    encodeFields (opField w) (lenField w) (flgField w) = w := by
  rw [word_eq_iff_fields, h]
  exact encodeFields_fields _ _ _

/-! ### The row that selects a word (R92) -/

/-- The operand fields a row's class does not use are 0 (R93). -/
def OpRow.Takes (r : OpRow) (len flg : Byte) : Prop :=
  (r.cls = .n → len = 0) ∧ (r.cls ≠ .lf → flg = 0)

/-- A row's mask column, field by field: OP and RSV are fixed, and so are LEN and FLG where the class has none. -/
theorem opTable_mask : ∀ r ∈ opTable,
    rsvField r.mask = BitVec.allOnes 8 ∧ opField r.mask = BitVec.allOnes 8
      ∧ lenField r.mask = (if r.cls = .n then BitVec.allOnes 8 else 0)
      ∧ flgField r.mask = (if r.cls ≠ .lf then BitVec.allOnes 8 else 0) := by decide

theorem opTable_pattern : ∀ r ∈ opTable, r.pattern = encodeFields r.op 0 0 := by decide

theorem and_ite_allOnes_eq_zero_iff (x : Byte) (c : Prop) [Decidable c] :
    x &&& (if c then BitVec.allOnes 8 else 0) = 0 ↔ (c → x = 0) := by
  split_ifs with h
  · rw [BitVec.and_allOnes, imp_iff_right h]
  · exact iff_of_true BitVec.and_zero (absurd · h)

/-- A row selects the words with its opcode whose unused fields are 0. -/
theorem and_mask_eq_pattern_iff {r : OpRow} (hr : r ∈ opTable) (w : Word) :
    w &&& r.mask = r.pattern
      ↔ rsvField w = 0 ∧ opField w = r.op ∧ r.Takes (lenField w) (flgField w) := by
  obtain ⟨hrsv, hop, hlen, hflg⟩ := opTable_mask r hr
  obtain ⟨prsv, pop, plen, pflg⟩ := encodeFields_fields r.op 0 0
  rw [word_eq_iff_fields, opTable_pattern r hr, prsv, pop, plen, pflg]
  rw [rsvField_and, opField_and, lenField_and, flgField_and, hrsv, hop, hlen, hflg, BitVec.and_allOnes,
    BitVec.and_allOnes, and_ite_allOnes_eq_zero_iff, and_ite_allOnes_eq_zero_iff, OpRow.Takes]

theorem rowOf_op : ∀ r ∈ opTable, rowOf r.op = some r := by
  simp only [opTable, List.forall_mem_cons, List.not_mem_nil, false_implies, implies_true, and_true]
  exact ⟨rfl, rfl, rfl, rfl, rfl, rfl, rfl, rfl, rfl, rfl, rfl⟩

/-- A word selects at most one row. -/
theorem row_unique {r r' : OpRow} (hr : r ∈ opTable) (hr' : r' ∈ opTable) {w : Word}
    (h : w &&& r.mask = r.pattern) (h' : w &&& r'.mask = r'.pattern) : r = r' := by
  obtain ⟨-, hop, -⟩ := (and_mask_eq_pattern_iff hr w).1 h
  obtain ⟨-, hop', -⟩ := (and_mask_eq_pattern_iff hr' w).1 h'
  rw [← Option.some_inj, ← rowOf_op r hr, ← rowOf_op r' hr', ← hop, ← hop']

/-! ### Decoding by the row that selects the word (R94) -/

theorem decode_of_selected {r : OpRow} (hr : r ∈ opTable) {w : Word} (h : w &&& r.mask = r.pattern) :
    decode w =
      if r.cls ≠ .n ∧ maxLen < (lenField w).toNat then .error .badLen
      else .ok (r.make (lenField w) (flgField w)) := by
  obtain ⟨hrsv, hop, hlen, hflg⟩ := (and_mask_eq_pattern_iff hr w).1 h
  rw [decode_of_rowOf_some w r hrsv (hop ▸ rowOf_op r hr), if_neg, if_neg]
  · rintro ⟨hcls, hne⟩
    exact hne (hflg (by simp [hcls]))
  · rintro ⟨hcls, hne⟩
    exact hne.elim (· (hlen hcls)) (· (hflg (by simp [hcls])))

theorem decode_of_not_selected {w : Word} (h : ∀ r ∈ opTable, w &&& r.mask ≠ r.pattern) :
    decode w = .error .illegalOp := by
  by_cases hrsv : rsvField w = 0
  · cases hrow : rowOf (opField w) with
    | none => exact decode_of_rowOf_none w hrow
    | some r =>
      obtain ⟨hr, hop⟩ := rowOf_eq_some hrow
      have hfields : ¬ r.Takes (lenField w) (flgField w) := fun htakes =>
        h r hr ((and_mask_eq_pattern_iff hr w).2 ⟨hrsv, hop.symm, htakes⟩)
      rw [decode_of_rowOf_some w r hrsv hrow]
      cases hcls : r.cls with
      | n => exact if_pos ⟨rfl, by simpa [OpRow.Takes, hcls, imp_iff_not_or] using hfields⟩
      | l => exact (if_neg nofun).trans (if_pos ⟨rfl, by simpa [OpRow.Takes, hcls] using hfields⟩)
      | lf => simp [OpRow.Takes, hcls] at hfields
  · exact decode_of_rsv w hrsv

/-- The words that decode: a row selects them, and a length the row uses is legal. -/
theorem decode_eq_ok_iff {w : Word} {i : Instr} :
    decode w = .ok i ↔ ∃ r ∈ opTable, w &&& r.mask = r.pattern
      ∧ (r.cls ≠ .n → (lenField w).toNat ≤ maxLen) ∧ r.make (lenField w) (flgField w) = i := by
  constructor
  · intro h
    by_cases hsel : ∃ r ∈ opTable, w &&& r.mask = r.pattern
    · obtain ⟨r, hr, hw⟩ := hsel
      rw [decode_of_selected hr hw] at h
      split_ifs at h with hlen
      exact ⟨r, hr, hw, fun hcls => Nat.not_lt.1 fun hlt => hlen ⟨hcls, hlt⟩, Except.ok.inj h⟩
    · rw [decode_of_not_selected (by simpa using hsel)] at h
      cases h
  · rintro ⟨r, hr, hw, hlen, rfl⟩
    rw [decode_of_selected hr hw, if_neg fun ⟨hcls, hlt⟩ => Nat.not_lt.2 (hlen hcls) hlt]

/-! ### Commands and their rows (R92, R98) -/

/-- A row's command is encoded as the row's opcode with the operand fields. -/
theorem encode_make {len flg : Byte} :
    ∀ r ∈ opTable, r.Takes len flg → encode (r.make len flg) = encodeFields r.op len flg := by
  simp +contextual [opTable, OpRow.Takes, encode]

/-- A row's command is well formed exactly when a length the row uses is legal (R95). -/
theorem opTable_make_wellFormed_iff (len flg : Byte) :
    ∀ r ∈ opTable, ((r.make len flg).WellFormed ↔ (r.cls ≠ .n → len.toNat ≤ maxLen)) := by
  simp [opTable]

/-- The word a command is encoded as is selected by the command's own row (R92). -/
theorem encode_selectsRow (i : Instr) : Laws.SelectsRow.Statement i := by
  cases i with
  | init => exact Laws.SelectsRow.init
  | initKeyed => exact Laws.SelectsRow.initKeyed
  | initDerive => exact Laws.SelectsRow.initDerive
  | deriveMaterial => exact Laws.SelectsRow.deriveMaterial
  | reset => exact Laws.SelectsRow.reset
  | update len => exact Laws.SelectsRow.update len
  | finalize len => exact Laws.SelectsRow.finalize len
  | compress len flg => exact Laws.SelectsRow.compress len flg
  | mineHash => exact Laws.SelectsRow.mineHash
  | mineCheck => exact Laws.SelectsRow.mineCheck
  | mineTry => exact Laws.SelectsRow.mineTry

theorem decode_encode {i : Instr} (hwf : i.WellFormed) : decode (encode i) = .ok i := by
  obtain ⟨r, hr, hw, hmake⟩ := encode_selectsRow i
  exact decode_eq_ok_iff.2 ⟨r, hr, hw, (opTable_make_wellFormed_iff _ _ r hr).1 (hmake.symm ▸ hwf), hmake⟩

end Sys2Proof

namespace Sys2Proof.Machine

/-! ### The obligations -/

/-- Settles O2: a command's word is selected by the command's own row, and its operands stand in its fields. -/
theorem decodeOfEncode : Obligations.DecodeOfEncode := fun _ hwf => decode_encode hwf

/-- Settles O3: the row that selects the word fixes all of it but the operand fields it gives the command. -/
theorem encodeOfDecode : Obligations.EncodeOfDecode := by
  intro w i h
  refine ⟨decode_wellFormed h, ?_⟩
  obtain ⟨r, hr, hw, -, rfl⟩ := decode_eq_ok_iff.1 h
  obtain ⟨hrsv, hop, htakes⟩ := (and_mask_eq_pattern_iff hr w).1 hw
  rw [encode_make r hr htakes, ← hop, encodeFields_of_rsv_zero hrsv]

/-- Settles O5: the rows that select a word have its opcode, and no two rows have the same. -/
theorem opcodeRowsDisjoint : Obligations.OpcodeRowsDisjoint := fun _ _ hr _ hr' h h' =>
  congrArg OpRow.mnemonic (row_unique hr hr' h h')

/-- Settles O6: a word no row selects is illegal, and of a selected word only the length can be refused. -/
theorem illegalWordsSelectNoRow : Obligations.IllegalWordsSelectNoRow := by
  intro w
  rw [← lenField_toNat]
  by_cases hsel : ∃ r ∈ opTable, w &&& r.mask = r.pattern
  · obtain ⟨r, hr, hw⟩ := hsel
    have hrow : ∀ r' ∈ opTable, w &&& r'.mask = r'.pattern → r' = r := fun r' hr' hw' => row_unique hr' hr hw' hw
    rw [decode_of_selected hr hw]
    refine ⟨iff_of_false (by split <;> nofun) fun h => h r hr hw, ?_⟩
    constructor
    · intro h
      split_ifs at h with hlen
      exact ⟨r, hr, hw, hlen⟩
    · rintro ⟨r', hr', hw', hlen⟩
      obtain rfl := hrow r' hr' hw'
      exact if_pos hlen
  · have hnone : ∀ r ∈ opTable, w &&& r.mask ≠ r.pattern := by simpa using hsel
    rw [decode_of_not_selected hnone]
    exact ⟨iff_of_true rfl hnone, iff_of_false nofun fun ⟨r, hr, hw, _⟩ => hnone r hr hw⟩

/-- Settles O1: the decoder run on each of the words. -/
theorem specWordsDecode : Obligations.SpecWordsDecode :=
  ⟨rfl, rfl, rfl, rfl, rfl, rfl, rfl, rfl, rfl, rfl, rfl, rfl, rfl, rfl, rfl, rfl, rfl⟩

/-- Settles O7: the step at a due word runs the word, which runs what it decodes to. -/
theorem stepRunsDecodedCommand : Obligations.StepRunsDecodedCommand := fun s w i hdue hd =>
  (step_of_due s w hdue).trans (runWord_ok w s i hd)

end Sys2Proof.Machine
end

section
/-! SUPPORT. The obligations about the invariant (10_state.md R47, R48, R53; 42_tree_finalize.md R174, R175), and the
laws they need: a fresh session is legal, what a completed UPDATE does, and that a step runs a command word, takes
the reset input or keeps the session. -/

namespace Sys2Proof.Machine

/-- A command's outcome is one state. -/
theorem next_inj {o : Result} {t u : State} (h : o = .next t) (h' : o = .next u) : t = u :=
  Host.Outcome.next.inj (h.symm.trans h')

/-! ### Fresh sessions (R205, R208) -/

/-- The invariant is about the session and its mode alone. -/
theorem State.Inv.of_sameSession {s t : State} (h : s.Inv) (hsame : s.SameSession t) : t.Inv := by
  obtain ⟨hmode, hsession⟩ := hsame
  rw [State.Inv, hmode, hsession]
  exact h

theorem hasher_reset_eq_freshHasher : Hasher.reset = freshHasher (Vector.replicate 8 0) 0 := rfl

theorem reset_inv : State.reset.Inv :=
  ⟨freshHasher_legal (Vector.replicate 8 0) 0, rfl, by simp [State.reset]⟩

theorem sessionStart_inv {k : ChainingValue} {m : Mode} (s : State)
    (hkey : m = .default ∨ m = .deriveCtx → k = iv) : (s.sessionStart k m.flags m).complete.Inv :=
  ⟨freshHasher_legal k m.flags, rfl, hkey⟩

/-- The mask RESET applies keeps the flags of every mode it runs in (R205). -/
theorem flags_and_resetMask {m : Mode} (h : m ≠ .deriveCtx) :
    m.flags &&& (keyedHash ||| deriveKeyMaterial) = m.flags := by
  revert h
  cases m <;> decide

/-! ### UPDATE (R206) -/

theorem exec_update_of_long (s : State) {len : Byte} (hlen : maxLen < len.toNat) :
    exec (.update len) s = .next (s.raise .badLen) := if_pos hlen

/-- The one way UPDATE completes: no check of R206 refuses it, and the session absorbs the bytes. -/
theorem exec_update_completed {s t : State} {len : Byte} (h : exec (.update len) s = .next t) (hok : t.err = .ok) :
    len.toNat ≤ maxLen ∧ s.mode ≠ .none ∧ ¬ pushOverflows s.session len.toNat
      ∧ t = { s with session := hasherUpdate s.session ((bufBytes s.din).take len.toNat) }.complete := by
  have hraise : ∀ e : Err, e ≠ .ok → exec (.update len) s ≠ .next (s.raise e) := by
    rintro e he h'
    obtain rfl := next_inj h h'
    exact he hok
  have hlen : len.toNat ≤ maxLen := Nat.not_lt.1 fun hlt =>
    hraise _ (by decide) (exec_update_of_long s hlt)
  have hmode : s.mode ≠ .none := fun hnone => hraise _ (by decide) (exec_update_of_none hlen hnone)
  have hfits : ¬ pushOverflows s.session len.toNat := fun hover =>
    hraise _ (by decide) (exec_update_of_overflow hlen hmode hover)
  exact ⟨hlen, hmode, hfits, next_inj h (exec_update_of_fits hlen hmode hfits)⟩

theorem take_bufBytes_length (d : Vector Word 16) {n : Nat} (h : n ≤ maxLen) : ((bufBytes d).take n).length = n := by
  rw [List.length_take, bufBytes_length]
  exact Nat.min_eq_left h

/-- A completed UPDATE leaves a legal session, its input longer by the bytes absorbed (R151, R175). -/
theorem exec_update_legal {s t : State} {len : Byte} (hs : s.session.Legal) (h : exec (.update len) s = .next t)
    (hok : t.err = .ok) :
    t.session.Legal
      ∧ 1024 * t.session.chunk.counter.toNat + t.session.chunk.len
          = 1024 * s.session.chunk.counter.toNat + s.session.chunk.len + len.toNat := by
  obtain ⟨hlen, -, hfits, rfl⟩ := exec_update_completed h hok
  have hbytes := take_bufBytes_length s.din hlen
  have := hasherUpdate_legal s.session _ hs (hbytes.trans_le hlen) (by rwa [hbytes])
  rwa [hbytes] at this

/-- After the first chunk the active chunk is never empty (R48, R175). -/
theorem Hasher.Legal.len_pos {m : Hasher} (h : m.Legal) (hpos : 0 < m.chunk.counter.toNat) : 1 ≤ m.chunk.len := by
  obtain ⟨⟨-, -, -, hcounter⟩, hstack, -, hlen, -⟩ := h
  have hpop := popcount_pos _ hpos (by omega)
  exact hlen (List.ne_nil_of_length_pos (hstack ▸ hpop))

/-! ### Every command word keeps the invariant -/

theorem exec_update_inv {s t : State} {len : Byte} (hs : s.Inv) (h : exec (.update len) s = .next t) : t.Inv := by
  by_cases hok : t.err = .ok
  · obtain ⟨hlegal, -⟩ := exec_update_legal hs.1 h hok
    obtain ⟨-, -, -, rfl⟩ := exec_update_completed h hok
    refine ⟨hlegal, ?_⟩
    simpa [ModeLegal] using hs.2
  · obtain ⟨u, hu, -, hfail⟩ := (exec_ends (.update len) s).only_reports
    obtain rfl := next_inj h hu
    rw [hfail hok]
    exact hs

theorem exec_deriveMaterial_inv {s t : State} (hs : s.Inv) (h : exec .deriveMaterial s = .next t) : t.Inv := by
  by_cases hnone : s.mode = .none
  · obtain rfl := next_inj h (exec_deriveMaterial_of_none hnone)
    exact hs
  by_cases hctx : s.mode = .deriveCtx
  · obtain rfl := next_inj h (exec_deriveMaterial_of_deriveCtx hctx)
    exact sessionStart_inv (m := .deriveMat) s (by simp)
  · obtain rfl := next_inj h (exec_deriveMaterial_of_otherMode hnone hctx)
    exact hs

theorem exec_reset_inv {s t : State} (hs : s.Inv) (h : exec .reset s = .next t) : t.Inv := by
  by_cases hnone : s.mode = .none
  · obtain rfl := next_inj h (exec_reset_of_none hnone)
    exact hs
  by_cases hctx : s.mode = .deriveCtx
  · obtain rfl := next_inj h (exec_reset_of_deriveCtx hctx)
    exact hs
  · obtain rfl := next_inj h (exec_reset_of_session hnone hctx)
    obtain ⟨-, hflags, hkey⟩ := hs
    exact ⟨freshHasher_legal _ _, by simp [hflags, flags_and_resetMask hctx], hkey⟩

theorem exec_inv {i : Instr} {s t : State} (hwf : i.WellFormed) (hs : s.Inv) (h : exec i s = .next t) : t.Inv := by
  cases i with
  | init =>
    obtain rfl := Host.Outcome.next.inj h
    exact sessionStart_inv (m := .default) s fun _ => rfl
  | initKeyed =>
    obtain rfl := Host.Outcome.next.inj h
    exact sessionStart_inv (m := .keyed) s (by simp)
  | initDerive =>
    obtain rfl := Host.Outcome.next.inj h
    exact sessionStart_inv (m := .deriveCtx) s fun _ => rfl
  | deriveMaterial => exact exec_deriveMaterial_inv hs h
  | reset => exact exec_reset_inv hs h
  | update => exact exec_update_inv hs h
  | finalize | compress | mineHash | mineCheck | mineTry =>
    obtain ⟨u, hu, hmode, -, -, hsession⟩ := exec_followsTable _ s hwf
    obtain rfl := next_inj h hu
    exact hs.of_sameSession ⟨hmode, hsession⟩

theorem runWord_inv {w : Word} {s t : State} (hs : s.Inv) (h : runWord w s = .next t) : t.Inv := by
  cases hd : decode w with
  | error e =>
    obtain rfl := next_inj h (runWord_error w s e hd)
    exact hs
  | ok i => exact exec_inv (decode_wellFormed hd) hs ((runWord_ok w s i hd).symm.trans h)

/-! ### The reset input (R280) -/

/-- A host cycle takes the next statement off the list and serves it. -/
theorem hostCycle_cons {s : State} {stmt : HostStmt} {rest : List HostStmt} (h : s.host = stmt :: rest) :
    hostCycle s = serve stmt { s with host := rest } := by
  simp only [hostCycle, h]

/-- The step while a command has cycles to pass: the host's next statement is served. -/
theorem step_running_cons {s : State} {w : Word} {n : Nat} {stmt : HostStmt} {rest : List HostStmt}
    (hrun : s.running = some ⟨w, n + 1⟩) (hhost : s.host = stmt :: rest) :
    step s = serve stmt { s with running := some ⟨w, n⟩, host := rest } :=
  (step_running s w n hrun).trans (hostCycle_cons hhost)

/-- A step of a host whose next statement is the reset input is that event, unless a command completes in it. -/
theorem step_resetInput {s : State} {rest : List HostStmt} (hhost : s.host = .resetInput :: rest)
    (hdue : ∀ w, s.running ≠ some ⟨w, 0⟩) : step s = serve .resetInput { s with host := rest } := by
  match hrun : s.running with
  | none => rw [step_idle s hrun, hostCycle_cons hhost, hrun]
  | some ⟨w, 0⟩ => exact absurd hrun (hdue w)
  | some ⟨w, n + 1⟩ =>
    rw [step_running_cons hrun hhost]
    rfl

theorem step_inv {s t : State} (hs : s.Inv) (h : step s = .next t) : t.Inv := by
  by_cases hdue : ∃ w, s.running = some ⟨w, 0⟩
  · obtain ⟨w, hw⟩ := hdue
    exact runWord_inv hs ((step_of_due s w hw).symm.trans h)
  · by_cases hreset : s.host.head? = some .resetInput
    · obtain ⟨rest, hhost⟩ := List.head?_eq_some_iff.1 hreset
      obtain rfl := next_inj h (step_resetInput hhost (not_exists.1 hdue))
      exact reset_inv
    · exact hs.of_sameSession (step_sameSession h (not_exists.1 hdue) hreset)

/-! ### The obligations -/

/-- Settles O44: a step runs a command word, each of which keeps the invariant, takes the reset input, or keeps the
session and its mode. -/
theorem stepKeepsLegal : Obligations.StepKeepsLegal := fun _ _ => step_inv

/-- Settles O43: the reset session is a fresh one. -/
theorem resetStateIsLegal : Obligations.ResetStateIsLegal := reset_inv

/-- Settles O18: both sessions are legal, so each active chunk has 1 to 1024 bytes once a chunk has been counted, and
the counts of the input before and after fix the counter. -/
theorem updateCountsItsBytes : Obligations.UpdateCountsItsBytes := by
  intro s t len hs h hok
  obtain ⟨hlegal, hcount⟩ := exec_update_legal hs.1 h hok
  have hlen : len.toNat ≤ 64 := (exec_update_completed h hok).1
  have hbefore : s.session.chunk.len ≤ 1024 := hs.1.ready.sized.len_le
  have hafter : t.session.chunk.len ≤ 1024 := hlegal.ready.sized.len_le
  have hbefore' := hs.1.len_pos
  have hafter' := hlegal.len_pos
  refine ⟨hcount, ?_⟩
  rcases Nat.lt_or_ge 1024 (s.session.chunk.len + len.toNat) with hpast | hwithin
  · exact .inr ⟨by omega, hpast⟩
  · exact .inl (BitVec.eq_of_toNat_eq (by omega))

end Sys2Proof.Machine
end

section
/-! SUPPORT. The obligations about the session commands (43_session.md R204 to R207), and the laws they need: the bytes
of a register array written from a byte string, a RESET right after `session_start`, and what FINALIZE writes. -/

namespace Sys2Proof.Machine

/-! ### Register arrays and pairs (R40, R91) -/

/-- A register array written with a byte string has its bytes (R40). -/
theorem arrayByte_bufWords {n : Nat} {b : List Byte} (h : b.length = 4 * n) {k : Nat} (hk : k < 4 * n) :
    arrayByte (bufWords n b) k = byteAt b k := by
  rw [← byteAt_bufBytes_eq_arrayByte _ hk, bufBytes_bufWords n b h]

theorem digest32_length (m : Hasher) : (digest32 m).length = 32 := rootBytes_length _ _ _

/-! ### UPDATE (R206), and lengths above 64 (log 15) -/

theorem updateBytes_length (d : Vector Word 16) (len : Byte) : (updateBytes d len).length = len.toNat := by
  simp [updateBytes]

theorem byteAt_updateBytes (d : Vector Word 16) {len : Byte} {k : Nat} (hk : k < len.toNat) :
    byteAt (updateBytes d len) k = arrayByte d k := by
  simp [byteAt, updateBytes, hk]

theorem exec_finalize_of_long (s : State) {len : Byte} (hlen : maxLen < len.toNat) :
    exec (.finalize len) s = .next (s.raise .badLen) := if_pos hlen

theorem exec_compress_of_long (s : State) {len : Byte} (flg : Byte) (hlen : maxLen < len.toNat) :
    exec (.compress len flg) s = .next (s.raise .badLen) := if_pos hlen

/-! ### RESET (R205) -/

/-- RESET right after a `session_start` whose flags the mask keeps and whose mode allows it. -/
theorem exec_reset_sessionStart (s : State) {k : ChainingValue} {f : Byte} {m : Mode} (hnone : m ≠ .none)
    (hctx : m ≠ .deriveCtx) (hflags : f &&& (keyedHash ||| deriveKeyMaterial) = f) :
    exec .reset (s.sessionStart k f m).complete = .next (s.sessionStart k f m).complete := by
  rw [exec_reset_of_session hnone hctx, State.complete_session, State.sessionStart_session, freshHasher_key,
    freshHasher_flags, hflags]
  rfl

/-- DERIVE_MATERIAL completes in mode DERIVE_CTX alone. -/
theorem exec_deriveMaterial_completed {s t : State} (h : exec .deriveMaterial s = .next t) (hok : t.err = .ok) :
    t = (s.sessionStart (bufWords 8 (digest32 s.session)) deriveKeyMaterial .deriveMat).complete := by
  by_cases hnone : s.mode = .none
  · obtain rfl := next_inj h (exec_deriveMaterial_of_none hnone)
    cases hok
  by_cases hctx : s.mode = .deriveCtx
  · exact next_inj h (exec_deriveMaterial_of_deriveCtx hctx)
  · obtain rfl := next_inj h (exec_deriveMaterial_of_otherMode hnone hctx)
    cases hok

/-! ### FINALIZE (R207) -/

theorem finalizeBytes_length {xof : MultiChunkXof} {m : Hasher} {seek len : Nat} {out : List Byte}
    (h : finalizeBytes xof m seek len = .ok out) : out.length = len := by
  obtain ⟨-, rfl⟩ := (finalizeBytes_eq_ok_iff _ _ _ _ _).1 h
  exact rootBytes_length _ _ _

/-- DOUT's bytes after a FINALIZE: the output, then DOUT's own from byte `len` on. -/
theorem finalizeDout_length {n : Nat} {out : List Byte} (d : Vector Word 16) (hout : out.length = n) (hn : n ≤ 64) :
    (out ++ (bufBytes d).drop n).length = 4 * 16 := by
  rw [List.length_append, List.length_drop, bufBytes_length, hout]
  omega

theorem arrayByte_finalizeDout {n : Nat} {out : List Byte} (d : Vector Word 16) (hout : out.length = n) (hn : n ≤ 64)
    {k : Nat} (hk : k < 64) :
    arrayByte (bufWords 16 (out ++ (bufBytes d).drop n)) k = if k < n then byteAt out k else arrayByte d k := by
  rw [arrayByte_bufWords (finalizeDout_length d hout hn) hk, ← byteAt_bufBytes_eq_arrayByte d hk, ← hout, byteAt]
  split_ifs with hlt
  · rw [List.getD_append _ _ _ _ hlt, byteAt]
  · have hge : out.length ≤ k := Nat.not_lt.1 hlt
    rw [List.getD_append_right _ _ _ _ hge, byteAt]
    simp only [List.getD_eq_getElem?_getD, List.getElem?_drop, Nat.add_sub_cancel' hge]

/-- FINALIZE where `finalize_bytes` returns: the output and the frame. -/
theorem exec_finalize_writes (s : State) {len : Byte} (hlen : len.toNat ≤ 64) (hmode : s.mode ≠ .none)
    {out : List Byte}
    (h : finalizeBytes Config.multiChunkXof s.session (pairNat s.seekHi s.seekLo) len.toNat = .ok out) :
    ∃ t, exec (.finalize len) s = .next t ∧ t.Completed
      ∧ (∀ k < 64, arrayByte t.dout k = if k < len.toNat then byteAt out k else arrayByte s.dout k)
      ∧ s.SameSession t ∧ s.SameOperands t ∧ t.mhash = s.mhash ∧ t.chk = s.chk ∧ t.wbusy = s.wbusy
      ∧ s.SameHost t := by
  refine ⟨_, exec_finalize_of_ok s hlen hmode h, ⟨rfl, rfl⟩, fun k hk => ?_, ?_⟩
  · exact arrayByte_finalizeDout s.dout (finalizeBytes_length h) hlen hk
  · simp [State.SameSession, State.SameOperands, State.SameHost]

/-- FINALIZE once more, whatever DOUT the first left: neither DOUT nor ERR is read before it is written. -/
theorem exec_finalize_of_ok_after (s : State) (d : Vector Word 16) {len : Byte} (hlen : len.toNat ≤ 64)
    (hmode : s.mode ≠ .none) {out : List Byte}
    (h : finalizeBytes Config.multiChunkXof s.session (pairNat s.seekHi s.seekLo) len.toNat = .ok out) :
    exec (.finalize len) { s with dout := d }.complete
      = .next { s with dout := bufWords 16 (out ++ (bufBytes d).drop len.toNat) }.complete :=
  exec_finalize_of_ok { s with dout := d }.complete hlen hmode h

/-- Writing the output over a DOUT that holds it already. -/
theorem finalizeDout_idem {n : Nat} {out : List Byte} (d : Vector Word 16) (hout : out.length = n) (hn : n ≤ 64) :
    out ++ (bufBytes (bufWords 16 (out ++ (bufBytes d).drop n))).drop n = out ++ (bufBytes d).drop n := by
  rw [bufBytes_bufWords _ _ (finalizeDout_length d hout hn), List.drop_left' hout]

/-! ### The obligations -/

/-- Settles O12: the context key is the digest, which is `finalize_bytes(0, 32)`, and the rest is `session_start`. -/
theorem deriveMaterialTakesContextKey : Obligations.DeriveMaterialTakesContextKey := by
  intro s hctx
  obtain ⟨hcompleted, hfresh, hmode, hframe⟩ :=
    sessionStart_complete_writes s (bufWords 8 (digest32 s.session)) deriveKeyMaterial .deriveMat
  exact ⟨_, _, finalizeBytes_zero_32 _ s.session, digest32_length _, exec_deriveMaterial_of_deriveCtx hctx,
    hcompleted, hmode, hfresh, fun k hk => arrayByte_bufWords (digest32_length _) hk, hframe⟩

/-- Settles O13: the mask keeps the flags of every mode RESET runs in. -/
theorem resetKeepsKeyAndMode : Obligations.ResetKeepsKeyAndMode := by
  intro s hnone hctx
  refine ⟨_, exec_reset_of_session hnone hctx, ⟨rfl, rfl⟩, rfl, freshHasher_fresh _ _, fun hflags => ?_, ?_⟩
  · show s.session.flags &&& (keyedHash ||| deriveKeyMaterial) = s.session.flags
    rw [hflags, flags_and_resetMask hctx]
  · simp [State.SameOperands, State.SameHost]

/-- Settles O14: each of the three is a `session_start` with the flags of a mode RESET runs in. -/
theorem resetAfterStartChangesNothing : Obligations.ResetAfterStartChangesNothing := by
  rintro s t (h | h | ⟨h, hok⟩)
  · obtain rfl := Host.Outcome.next.inj h
    exact exec_reset_sessionStart s nofun nofun (by decide)
  · obtain rfl := Host.Outcome.next.inj h
    exact exec_reset_sessionStart s nofun nofun (by decide)
  · obtain rfl := exec_deriveMaterial_completed h hok
    exact exec_reset_sessionStart s nofun nofun (by decide)

/-- Settles O15: each command's check of the mode. -/
theorem sessionCommandsNeedTheirMode : Obligations.SessionCommandsNeedTheirMode :=
  ⟨fun _ hnone => ⟨exec_deriveMaterial_of_none hnone, exec_reset_of_none hnone, fun _ hlen =>
      ⟨exec_update_of_none hlen hnone, exec_finalize_of_none hlen hnone⟩⟩,
    fun _ hnone hctx => exec_deriveMaterial_of_otherMode hnone hctx, fun _ hctx => exec_reset_of_deriveCtx hctx⟩

/-- Settles O10: the first check of each of the three commands. -/
theorem longLengthsRaiseBadLen : Obligations.LongLengthsRaiseBadLen := fun s _ flg hlen =>
  ⟨exec_update_of_long s hlen, exec_finalize_of_long s hlen, exec_compress_of_long s flg hlen⟩

/-- Settles O16: with room UPDATE absorbs its bytes of DIN, and without it is refused. -/
theorem updateAbsorbsDin : Obligations.UpdateAbsorbsDin := by
  refine fun s len hlen hmode => ⟨fun hroom => ?_, fun hpos hpast hfull =>
    exec_update_of_overflow hlen hmode ⟨hpos, hpast, Nat.lt_succ_of_le hfull⟩⟩
  have hfits : ¬ pushOverflows s.session len.toNat := fun ⟨_, hpast, hfull⟩ =>
    Nat.not_lt.2 (hroom hpast) hfull
  refine ⟨updateBytes s.din len, _, updateBytes_length _ _, fun k hk => byteAt_updateBytes _ hk,
    exec_update_of_fits hlen hmode hfits, ⟨rfl, rfl⟩, ?_⟩
  simp [State.SameOperands, State.SameHost, updateBytes_eq_take _ hlen]

/-- Settles O17: no bytes are absorbed, and none need room. -/
theorem updateZeroChangesNothing : Obligations.UpdateZeroChangesNothing := by
  intro s hmode
  rw [exec_update_of_fits (by decide) hmode (by rintro ⟨hpos, -⟩; exact absurd hpos (by decide))]
  rfl

/-- Settles O20: FINALIZE by what `finalize_bytes` answers. -/
theorem finalizeWritesOutput : Obligations.FinalizeWritesOutput := fun s _ hlen hmode =>
  ⟨fun _ h => exec_finalize_writes s hlen hmode h, fun _ h => exec_finalize_of_error s hlen hmode h⟩

/-- Settles O21: in each of the three cases the request is in range, whatever MULTI_CHUNK_XOF is. -/
theorem finalizeCompletes : Obligations.FinalizeCompletes := by
  intro s len hlen hmode hcase
  have hrange : ¬ OutOfRange Config.multiChunkXof s.session (pairNat s.seekHi s.seekLo) len.toNat := by
    rintro ⟨-, hstack, hpos, hend⟩
    rcases hcase with hsingle | hzero | hfirst
    · exact hstack hsingle
    · exact hpos.ne' hzero
    · exact Nat.not_lt.2 hfirst hend
  obtain ⟨t, hexec, hcompleted, hdout, hframe⟩ :=
    exec_finalize_writes s hlen hmode (finalizeBytes_of_inRange hrange)
  refine ⟨t, hexec, hcompleted, fun k hk => ?_, hframe⟩
  rw [hdout k hk]
  split_ifs with hlt
  · exact byteAt_rootBytes _ _ hlt
  · rfl

/-- Settles O23: FINALIZE reads nothing that it writes but the bytes of DOUT it keeps. -/
theorem finalizeIsRepeatable : Obligations.FinalizeIsRepeatable := by
  intro s t len h
  by_cases hlen : len.toNat ≤ maxLen
  · by_cases hmode : s.mode = .none
    · obtain rfl := next_inj h (exec_finalize_of_none hlen hmode)
      exact exec_finalize_of_none hlen hmode
    · cases hbytes : finalizeBytes Config.multiChunkXof s.session (pairNat s.seekHi s.seekLo) len.toNat with
      | error e =>
        obtain rfl := next_inj h (exec_finalize_of_error s hlen hmode hbytes)
        exact exec_finalize_of_error (s.raise e) hlen hmode hbytes
      | ok out =>
        have hout := finalizeBytes_length hbytes
        obtain rfl := next_inj h (exec_finalize_of_ok s hlen hmode hbytes)
        rw [exec_finalize_of_ok_after s _ hlen hmode hbytes, finalizeDout_idem s.dout hout hlen]
  · have hlong : maxLen < len.toNat := Nat.not_le.1 hlen
    obtain rfl := next_inj h (exec_finalize_of_long s hlong)
    exact exec_finalize_of_long _ hlong

end Sys2Proof.Machine
end

section
/-! SUPPORT. The obligation about the order of the error codes (60_exceptions.md R251, R253), and the laws it needs: the
cause column of R251 for each command, and that each command reports the lowest code that applies. -/

namespace Sys2Proof.Machine

/-! ### The cause column of R251 -/

/-- The cause column for a well-formed command, whose word is legal. -/
def CommandError (s : State) : Instr → Err → Prop
  | .deriveMaterial, .noSession | .reset, .noSession | .update _, .noSession | .finalize _, .noSession =>
    s.mode = .none
  | .deriveMaterial, .state => s.mode ≠ .deriveCtx
  | .reset, .state => s.mode = .deriveCtx
  | .update len, .capacity => pushOverflows s.session len.toNat
  | .finalize len, .xofRange => OutOfRange Config.multiChunkXof s.session (pairNat s.seekHi s.seekLo) len.toNat
  | _, _ => False

/-- The fields of a command's word as the numbers the cause column speaks of. -/
theorem encodeFields_numbers (op len flg : Byte) :
    let w := encodeFields op len flg
    w.toNat % 256 = op.toNat ∧ w.toNat / 256 % 256 = len.toNat ∧ w.toNat / 65536 % 256 = flg.toNat
      ∧ w.toNat / 16777216 = 0 := by
  obtain ⟨hrsv, hop, hlen, hflg⟩ := encodeFields_fields op len flg
  simp [← opField_toNat, ← lenField_toNat, ← flgField_toNat, ← rsvField_toNat, hrsv, hop, hlen, hflg]

theorem errorApplies_encode {i : Instr} (hwf : i.WellFormed) (s : State) (e : Err) :
    ErrorApplies (encode i) s e ↔ CommandError s i e := by
  have hnumbers := encodeFields_numbers
  cases i with
  | init | initKeyed | initDerive | deriveMaterial | reset | mineHash | mineCheck | mineTry =>
    cases e <;> simp [ErrorApplies, encode, hnumbers, CommandError]
  | update len =>
    have hlen : len.toNat ≤ 64 := hwf
    cases e <;> simp [ErrorApplies, encode, hnumbers, CommandError, hlen]
  | finalize len =>
    have hlen : len.toNat ≤ 64 := hwf
    cases e <;> simp [ErrorApplies, encode, hnumbers, CommandError, hlen, OutOfRange]
  | compress len flg =>
    have hlen : len.toNat ≤ 64 := hwf
    cases e <;> simp [ErrorApplies, encode, hnumbers, CommandError, hlen]

/-- A check that refuses with `e`, and what follows it. -/
theorem ite_error_eq_error_iff {c : Prop} [Decidable c] {e : DecodeError} {o : Except DecodeError Instr} :
    (if c then .error e else o) = .error e ↔ c ∨ o = .error e := by
  split_ifs with h <;> simp [h]

/-- E_ILLEGAL_OP applies to the words that one of the first four checks of R94 refuses. -/
theorem errorApplies_illegalOp_iff (w : Word) (s : State) :
    ErrorApplies w s .illegalOp ↔ decode w = .error .illegalOp := by
  have hlast : ∀ (c : Prop) [Decidable c] (i : Instr),
      (if c then .error .badLen else .ok i) ≠ (.error .illegalOp : Except DecodeError Instr) := by
    intro c _ i
    split <;> nofun
  have hopcodes : ∀ op, op ∉ opcodesN ++ opcodesL ++ opcodesLF ↔ op ∉ opcodesN ∧ op ∉ opcodesL ∧ op ≠ 0x30 := by
    simp [opcodesLF]
  rw [decode_eq_checks]
  simp only [ite_error_eq_error_iff, hlast, or_false, hopcodes, rsvField_toNat, opField_toNat, lenField_toNat,
    flgField_toNat]
  rfl

/-- E_BAD_LEN applies to the words that only the last check refuses. -/
theorem errorApplies_badLen_of_decode {w : Word} (s : State) (h : decode w = .error .badLen) :
    ErrorApplies w s .badLen := by
  obtain ⟨r, hr, hw, hcls, hlen⟩ := (illegalWordsSelectNoRow w).2.1 h
  obtain ⟨-, hop, -⟩ := (and_mask_eq_pattern_iff hr w).1 hw
  have hmem := (opTable_cls_ne_n r hr).1 hcls
  rw [← hop, opField_toNat, List.mem_append, opcodesLF, List.mem_singleton] at hmem
  exact ⟨hmem, hlen⟩

/-! ### The lowest code is reported (R253) -/

/-- `o` is the next state R253 asks for: it reports the lowest code that applies, or completes where none does. -/
def ReportsLowest (applies : Err → Prop) (o : Result) : Prop :=
  ∃ t, o = .next t ∧ (t.err = .ok → ∀ e, ¬ applies e)
    ∧ (t.err ≠ .ok → applies t.err ∧ ∀ e, applies e → t.err.code ≤ e.code)

theorem reportsLowest_complete {applies : Err → Prop} (t : State) (h : ∀ e, ¬ applies e) :
    ReportsLowest applies (.next t.complete) :=
  ⟨_, rfl, fun _ => h, fun hne => absurd rfl hne⟩

theorem reportsLowest_raise {applies : Err → Prop} (s : State) {e : Err} (hok : e ≠ .ok) (h : applies e)
    (hlow : ∀ e', applies e' → e.code ≤ e'.code) : ReportsLowest applies (.next (s.raise e)) :=
  ⟨_, rfl, fun heq => absurd heq hok, fun _ => ⟨h, hlow⟩⟩

/-- A command of R200 in mode NONE: no lower code than E_NO_SESSION applies to a command. -/
theorem reportsLowest_noSession {i : Instr} (s : State) (h : CommandError s i .noSession) :
    ReportsLowest (CommandError s i) (.next (s.raise .noSession)) := by
  refine reportsLowest_raise s nofun h fun e' h' => ?_
  cases e' with
  | ok | illegalOp | badLen => cases i <;> exact h'.elim
  | noSession | state | xofRange | capacity => decide

/-- Past the check of the mode one code is left to apply. -/
theorem reportsLowest_only {applies : Err → Prop} (s : State) {e : Err} (hok : e ≠ .ok) (h : applies e)
    (honly : ∀ e', applies e' → e' = e) : ReportsLowest applies (.next (s.raise e)) :=
  reportsLowest_raise s hok h fun e' h' => by rw [honly e' h']; exact BitVec.le_refl _

theorem exec_reportsLowest {i : Instr} (hwf : i.WellFormed) (s : State) :
    ReportsLowest (CommandError s i) (exec i s) := by
  cases i with
  | init | initKeyed | initDerive | mineHash | mineCheck | mineTry => exact reportsLowest_complete _ nofun
  | compress len flg =>
    rw [exec_compress_of_le s flg hwf]
    exact reportsLowest_complete _ nofun
  | deriveMaterial =>
    by_cases hnone : s.mode = .none
    · rw [exec_deriveMaterial_of_none hnone]
      exact reportsLowest_noSession s hnone
    by_cases hctx : s.mode = .deriveCtx
    · rw [exec_deriveMaterial_of_deriveCtx hctx]
      exact reportsLowest_complete _ fun e => by cases e <;> simp [CommandError, hctx]
    · rw [exec_deriveMaterial_of_otherMode hnone hctx]
      exact reportsLowest_only s nofun hctx fun e => by cases e <;> simp [CommandError, hnone]
  | reset =>
    by_cases hnone : s.mode = .none
    · rw [exec_reset_of_none hnone]
      exact reportsLowest_noSession s hnone
    by_cases hctx : s.mode = .deriveCtx
    · rw [exec_reset_of_deriveCtx hctx]
      exact reportsLowest_only s nofun hctx fun e => by cases e <;> simp [CommandError, hnone]
    · rw [exec_reset_of_session hnone hctx]
      exact reportsLowest_complete _ fun e => by cases e <;> simp [CommandError, hnone, hctx]
  | update len =>
    by_cases hnone : s.mode = .none
    · rw [exec_update_of_none hwf hnone]
      exact reportsLowest_noSession s hnone
    by_cases hover : pushOverflows s.session len.toNat
    · rw [exec_update_of_overflow hwf hnone hover]
      exact reportsLowest_only s nofun hover fun e => by cases e <;> simp [CommandError, hnone]
    · rw [exec_update_of_fits hwf hnone hover]
      exact reportsLowest_complete _ fun e => by cases e <;> simp only [CommandError, hnone, hover, not_false_eq_true]
  | finalize len =>
    by_cases hnone : s.mode = .none
    · rw [exec_finalize_of_none hwf hnone]
      exact reportsLowest_noSession s hnone
    by_cases hrange : OutOfRange Config.multiChunkXof s.session (pairNat s.seekHi s.seekLo) len.toNat
    · rw [exec_finalize_of_error s hwf hnone (finalizeBytes_of_outOfRange hrange)]
      exact reportsLowest_only s nofun hrange fun e => by cases e <;> simp [CommandError, hnone]
    · rw [exec_finalize_of_ok s hwf hnone (finalizeBytes_of_inRange hrange)]
      exact reportsLowest_complete _ fun e => by cases e <;> simp [CommandError, hnone, hrange]

theorem runWord_reportsLowest (w : Word) (s : State) : ReportsLowest (ErrorApplies w s) (runWord w s) := by
  cases hd : decode w with
  | ok i =>
    obtain ⟨hwf, rfl⟩ := encodeOfDecode w i hd
    rw [runWord_ok _ s i hd, funext fun e => propext (errorApplies_encode hwf s e)]
    exact exec_reportsLowest hwf s
  | error d =>
    rw [runWord_error w s d hd]
    cases d with
    | illegalOp =>
      refine reportsLowest_raise s nofun ((errorApplies_illegalOp_iff w s).2 hd) fun e' h' => ?_
      cases e' with
      | ok => exact h'.elim
      | illegalOp | badLen | noSession | state | xofRange | capacity => decide
    | badLen =>
      refine reportsLowest_raise s nofun (errorApplies_badLen_of_decode s hd) fun e' h' => ?_
      cases e' with
      | ok => exact h'.elim
      | illegalOp => simp [errorApplies_illegalOp_iff, hd] at h'
      | badLen | noSession | state | xofRange | capacity => decide

/-! ### The obligation -/

/-- Settles O9: the decoder's refusals come first, and the checks of each command are in the order of their codes. -/
theorem lowestErrorCodeReported : Obligations.LowestErrorCodeReported := by
  refine ⟨runWord_reportsLowest, fun s => runWord_error _ s .illegalOp rfl,
    fun s _ => runWord_error _ s .badLen rfl, fun s hnone => ?_, fun s hmode _ _ => ?_⟩
  · exact (runWord_ok _ s (.update 0) rfl).trans (exec_update_of_none (by decide) hnone)
  · have hempty : finalizeBytes Config.multiChunkXof s.session (pairNat s.seekHi s.seekLo) (0 : Byte).toNat = .ok [] :=
      rfl
    exact ⟨_, (runWord_ok _ s (.finalize 0) rfl).trans (exec_finalize_of_ok s (by decide) hmode hempty), rfl⟩

end Sys2Proof.Machine
end

section
/-! SUPPORT. The obligations about COMPRESS and the rounds (40_compression.md R125, R126, R132), and the laws they need:
CTR from its registers, and that rotation, G and a round are injective. -/

namespace Sys2Proof.Machine

/-! ### COMPRESS (R132) -/

/-- A 64-bit value from its two registers (R91). -/
theorem pair64_toNat (hi lo : Word) : (pair64 hi lo).toNat = pairNat hi lo :=
  seek_toNat { State.reset with seekHi := hi, seekLo := lo }

theorem ctr_eq_ofNat (s : State) : s.ctr = BitVec.ofNat 64 (pairNat s.ctrHi s.ctrLo) := by
  rw [← pair64_toNat, BitVec.ofNat_toNat, BitVec.setWidth_eq, State.ctr]

/-! ### The rounds lose nothing (R125, R126) -/

theorem rotateLeft_rotateRight {w : Nat} (x : BitVec w) (r : Nat) : (x.rotateRight r).rotateLeft r = x := by
  ext i hi
  have hr : r % w < w := Nat.mod_lt r (by omega)
  rw [BitVec.getElem_rotateLeft]
  split_ifs with hlow
  · rw [BitVec.getElem_rotateRight, dif_neg (by omega)]
    congr 1
    omega
  · rw [BitVec.getElem_rotateRight, dif_pos (by omega)]
    congr 1
    omega

theorem rotateRight_injective {w : Nat} (r : Nat) : Function.Injective (fun x : BitVec w => x.rotateRight r) :=
  Function.LeftInverse.injective (g := fun x => x.rotateLeft r) fun x => rotateLeft_rotateRight x r

/-- Half of G can be undone: each word it writes is one it took, combined with words already recovered. -/
theorem halfRound_injective {a b c d : Fin 16} (mw : Word) {r₁ r₂ : Nat} (h : [a, b, c, d].Nodup) (h₁ : r₁ < 32)
    (h₂ : r₂ < 32) : Function.Injective fun v => halfRound v a b c d mw r₁ r₂ := by
  intro v v' heq
  obtain ⟨ha, hb, hc, hd, hother⟩ := halfRound_getElem v mw h h₁ h₂
  obtain ⟨ha', hb', hc', hd', hother'⟩ := halfRound_getElem v' mw h h₁ h₂
  simp only at heq
  rw [heq] at ha hb hc hd hother
  have ea := ha.symm.trans ha'
  have vd : v[d] = v'[d] := by
    have := rotateRight_injective r₁ (hd.symm.trans hd')
    rwa [ea, BitVec.xor_left_inj] at this
  have vc : v[c] = v'[c] := by
    have := hc.symm.trans hc'
    rwa [ea, vd, BitVec.add_left_inj] at this
  have vb : v[b] = v'[b] := by
    have := rotateRight_injective r₂ (hb.symm.trans hb')
    rwa [ea, vd, vc, BitVec.xor_left_inj] at this
  have va : v[a] = v'[a] := by
    rwa [vb, BitVec.add_left_inj, BitVec.add_left_inj] at ea
  apply Vector.ext
  intro i hi
  by_cases hmem : (⟨i, hi⟩ : Fin 16) ∈ [a, b, c, d]
  · simp only [List.mem_cons, List.not_mem_nil, or_false] at hmem
    rcases hmem with rfl | rfl | rfl | rfl
    · exact va
    · exact vb
    · exact vc
    · exact vd
  · exact (hother _ hmem).symm.trans (hother' _ hmem)

theorem quarterRound_injective {a b c d : Fin 16} (mx my : Word) (h : [a, b, c, d].Nodup) :
    Function.Injective fun v => quarterRound v a b c d mx my := by
  simp only [quarterRound_eq_halfRound]
  exact (halfRound_injective my h (by decide) (by decide)).comp (halfRound_injective mx h (by decide) (by decide))

/-- A round is eight G in a row, each on four different words (R126). -/
theorem roundStep_injective (m : Block16) (row : Vector (Fin 16) 16) :
    Function.Injective fun v => roundStep v m row := by
  unfold roundStep
  have hG : ∀ {a b c d : Fin 16} (mx my : Word), [a, b, c, d].Nodup → ∀ {f : Block16 → Block16},
      Function.Injective f → Function.Injective fun v => quarterRound (f v) a b c d mx my :=
    fun mx my h _ hf => (quarterRound_injective mx my h).comp hf
  iterate 8 refine hG _ _ (by decide) ?_
  exact Function.injective_id

theorem foldl_roundStep_injective (m : Block16) (rows : List (Vector (Fin 16) 16)) :
    Function.Injective fun v => rows.foldl (fun v s => roundStep v m s) v := by
  induction rows with
  | nil => exact Function.injective_id
  | cons row rows ih => exact ih.comp (roundStep_injective m row)

/-! ### The obligations -/

/-- Settles O26: COMPRESS on DIN's own bytes, with CTR as a number. -/
theorem compressWritesWideOutput : Obligations.CompressWritesWideOutput := by
  intro s len flg hlen
  refine ⟨bufBytes s.din, _, bufBytes_length _, fun k hk => byteAt_bufBytes_eq_arrayByte _ hk,
    exec_compress_of_le s flg hlen, ⟨rfl, rfl⟩, ?_⟩
  simp [State.SameSession, State.SameOperands, State.SameHost, ctr_eq_ofNat]

/-- Settles O29: the seven rounds are injective one by one. -/
theorem roundsLoseNothing : Obligations.RoundsLoseNothing := fun m _ _ h => foldl_roundStep_injective m sched h

end Sys2Proof.Machine
end

section
/-! SUPPORT. The obligations about the mining commands (44_mining.md R231 to R235), and the laws they need: the one-shot
hash of the header, the byte view of a register array as a list, and what the working header depends on. -/

namespace Sys2Proof.Machine

/-! ### The one-shot hash (R235) -/

theorem oneshotHash_length (x : List Byte) : (oneshotHash x).length = 32 := digest32_length _

/-- An input of at most a chunk leaves its one chunk active and the stack empty, so the chunk's node is the root. -/
theorem rootNode_of_one_chunk (K : ChainingValue) (F : Byte) {x : List Byte} (hpos : 1 ≤ x.length)
    (hx : x.length ≤ 1024) :
    rootNode (hasherUpdate (freshHasher K F) x) = chunkOutputNode F (chunkUpdate F (chunkInit K F 0) x) := by
  have hsession : hasherUpdate (freshHasher K F) x = chunkedHasher K F 0 [] x :=
    hasherUpdate_freshHasher K F (x := []) (by decide) rfl hpos hx
  have hstack : (chunkedHasher K F 0 [] x).stack = [] := treeStack_nil K F
  rw [hsession, rootNode, hstack]
  rfl

/-! ### Byte views (R40) -/

theorem map_arrayByte_range {n : Nat} (v : Vector Word n) :
    (List.range (4 * n)).map (arrayByte v) = bufBytes v := by
  apply List.ext_getElem
  · simp
  · intro k hk hk'
    have hbyte := byteAt_bufBytes_eq_arrayByte v (by simpa using hk' : k < 4 * n)
    rw [List.getElem_map, List.getElem_range, ← hbyte, byteAt, List.getD_eq_getElem _ _ hk']

/-- Byte `k` of the byte view is in word `k / 4`. -/
theorem arrayByte_congr {n : Nat} {v v' : Vector Word n} {k : Nat} (hk : k / 4 < n) (h : v[k / 4] = v'[k / 4]) :
    arrayByte v k = arrayByte v' k := by
  have hlen : ∀ u : Vector Word n, k / 4 < u.toList.length := fun u => by rwa [Vector.length_toList]
  rw [arrayByte, arrayByte, List.getD_eq_getElem _ _ (hlen v), List.getD_eq_getElem _ _ (hlen v'),
    Vector.getElem_toList, Vector.getElem_toList, h]

/-- Byte strings of one length with the same bytes are one. -/
theorem eq_of_byteAt_eq {n : Nat} {b b' : List Byte} (hb : b.length = n) (hb' : b'.length = n)
    (h : ∀ k < n, byteAt b k = byteAt b' k) : b = b' := by
  apply List.ext_getElem (hb.trans hb'.symm)
  intro k hk hk'
  have := h k (hb ▸ hk)
  rwa [byteAt, byteAt, List.getD_eq_getElem _ _ hk, List.getD_eq_getElem _ _ hk'] at this

/-- The working header depends on HDR outside the nonce field, word 35, and on NONCE (R230). -/
theorem workHeader_congr {s s' : State} (hhdr : ∀ i : Fin 45, i ≠ 35 → s.hdr[i] = s'.hdr[i])
    (hnonce : s.nonce = s'.nonce) : workHeader s = workHeader s' := by
  refine eq_of_byteAt_eq (workHeader_length s) (workHeader_length s') fun k hk => ?_
  by_cases hfield : 140 ≤ k ∧ k ≤ 143
  · obtain ⟨j, rfl⟩ := Nat.exists_eq_add_of_le hfield.1
    rw [byteAt_workHeader_nonce s (by omega), byteAt_workHeader_nonce s' (by omega), hnonce]
  · have hout : k < 140 ∨ 143 < k := by omega
    have hword : (⟨k / 4, by omega⟩ : Fin 45) ≠ 35 := fun heq => by
      have : k / 4 = 35 := congrArg Fin.val heq
      omega
    rw [byteAt_workHeader_hdr s hk hout, byteAt_workHeader_hdr s' hk hout]
    exact arrayByte_congr (by omega) (hhdr _ hword)

theorem mineHash_mhash_congr {s s' : State} (hhdr : ∀ i : Fin 45, i ≠ 35 → s.hdr[i] = s'.hdr[i])
    (hnonce : s.nonce = s'.nonce) : s.mineHash.mhash = s'.mineHash.mhash := by
  rw [State.mineHash_mhash, State.mineHash_mhash, workHeader_congr hhdr hnonce]

/-! ### The obligations -/

/-- Settles O34: MINE_HASH is the write of the digest to MHASH and its completion. -/
theorem mineHashWritesDigest : Obligations.MineHashWritesDigest := by
  refine fun s => ⟨_, exec_mineHash s, ⟨rfl, rfl⟩, oneshotHash_length _,
    fun k hk => arrayByte_bufWords (oneshotHash_length _) hk, ?_⟩
  simp [State.SameSession, State.SameOperands, State.SameHost]

/-- Settles O35: the input's one chunk ends in its third block, which is the root node's. -/
theorem oneShotClosedForm : Obligations.OneShotClosedForm := by
  intro x hx c1 c2 out
  have hcv : blocksCv iv 0x00 0 x 2 = c2 := by rw [blocksCv_succ, blocksCv_succ]; rfl
  have hrest : (x.drop 128).length = 52 := by rw [List.length_drop, hx]
  rw [oneshotHash, digest32_block, rootNode_of_one_chunk iv 0x00 (by omega) (by omega),
    chunkUpdate_chunkInit iv 0x00 0 (m := 2) (by omega) (by omega), hcv]
  have hflags : (0x00 ||| (0 : Byte) ||| chunkEnd ||| rootFlag) = 0x02 ||| 0x08 := by decide
  simp only [outputBlock, chunkOutputNode, hrest, Chunk.startFlag, OfNat.ofNat_ne_zero, if_false, hflags]
  rfl

/-- Settles O37: the comparison of the two byte views as numbers. -/
theorem mineCheckComparesBigEndian : Obligations.MineCheckComparesBigEndian := by
  intro s
  obtain ⟨horder, -⟩ := meetsIsBigEndianOrder.1 (bufBytes s.mhash) (bufBytes s.target) (bufBytes_length _)
    (bufBytes_length _)
  refine ⟨_, exec_mineCheck s, ⟨rfl, rfl⟩, ?_, ?_⟩
  · rwa [map_arrayByte_range s.mhash, map_arrayByte_range s.target]
  · simp [State.SameSession, State.SameOperands, State.SameHost]

/-- Settles O38: the three commands' equations. -/
theorem mineTryIsHashThenCheck : Obligations.MineTryIsHashThenCheck := by
  refine fun s => ⟨_, _, exec_mineHash s, exec_mineCheck _, exec_mineTry s, ⟨rfl, rfl⟩, rfl, ?_⟩
  simp [State.SameSession, State.SameOperands, State.SameHost]

/-- Settles O39: both results are of the working header, and the comparison reads TARGET besides. -/
theorem miningIgnoresSession : Obligations.MiningIgnoresSession := by
  intro s s' hhdr hnonce htarget
  have hmhash := mineHash_mhash_congr hhdr hnonce
  refine ⟨_, _, _, _, exec_mineHash s, exec_mineHash s', hmhash, exec_mineTry s, exec_mineTry s', hmhash, ?_⟩
  show meets (bufBytes s.mineHash.mhash) (bufBytes s.target) = meets (bufBytes s'.mineHash.mhash) (bufBytes s'.target)
  rw [hmhash, htarget]

end Sys2Proof.Machine
end

section
/-! SUPPORT. The obligations about what no command writes and no register shows (10_state.md R42, R52, R53;
92_eei_decisions.md D35), and the laws they need: what registers show of the session, and commands in mode NONE under
other values of the two that the reset leaves open. -/

namespace Sys2Proof.Machine

/-! ### What registers show of the session (R52) -/

/-- Sessions that agree on the five quantities of R52 read the same at every register. -/
theorem readReg_session_congr (s : State) {m : Hasher} (hcounter : m.chunk.counter = s.session.chunk.counter)
    (hbuf : m.chunk.buf.length = s.session.chunk.buf.length) (hblocks : m.chunk.blocks = s.session.chunk.blocks)
    (hstack : m.stack.length = s.session.stack.length) (hflags : m.flags = s.session.flags) (r : RegName) :
    readReg { s with session := m } r = readReg s r := by
  cases r with
  | infoCtrLo => simp only [readReg, State.infoCtrLo, hcounter]
  | infoCtrHi => simp only [readReg, State.infoCtrHi, hcounter]
  | infoChunk => simp only [readReg, State.infoChunk, hbuf, hblocks]
  | infoStack => simp only [readReg, State.infoStack, hstack, hflags]
  | _ => rfl

theorem readReg_withOpen (s : State) (k c : ChainingValue) (r : RegName) :
    readReg (s.withOpen k c) r = readReg s r :=
  readReg_session_congr s rfl rfl rfl rfl rfl r

/-! ### The two open reset values (R42, R53) -/

/-- The outcomes `o` and `o'` differ at most in the two open values, and not at all once a session has begun. -/
def SameButOpen (o o' : Result) : Prop :=
  ∃ t k c, o = .next t ∧ o' = .next (t.withOpen k c) ∧ (t.mode ≠ .none → t.withOpen k c = t)

/-- A command that leaves the session alone, in mode NONE. -/
theorem sameButOpen_of_none {t : State} (hmode : t.mode = .none) (k c : ChainingValue) :
    SameButOpen (.next t) (.next (t.withOpen k c)) :=
  ⟨t, k, c, rfl, rfl, fun h => absurd hmode h⟩

/-- A command whose outcome depends on neither of the open values. -/
theorem sameButOpen_refl (t : State) : SameButOpen (.next t) (.next t) :=
  ⟨t, t.session.key, t.session.chunk.cv, rfl, rfl, fun _ => rfl⟩

theorem raise_sameButOpen {s : State} (hmode : s.mode = .none) (k c : ChainingValue) (e : Err) :
    SameButOpen (.next (s.raise e)) (.next ((s.withOpen k c).raise e)) :=
  sameButOpen_of_none (t := s.raise e) hmode k c

theorem exec_sameButOpen {i : Instr} (hwf : i.WellFormed) {s : State} (hmode : s.mode = .none) (k c : ChainingValue) :
    SameButOpen (exec i s) (exec i (s.withOpen k c)) := by
  have hmode' : (s.withOpen k c).mode = .none := hmode
  cases i with
  | init | initKeyed | initDerive => exact sameButOpen_refl _
  | deriveMaterial =>
    rw [exec_deriveMaterial_of_none hmode, exec_deriveMaterial_of_none hmode']
    exact raise_sameButOpen hmode k c _
  | reset =>
    rw [exec_reset_of_none hmode, exec_reset_of_none hmode']
    exact raise_sameButOpen hmode k c _
  | update =>
    rw [exec_update_of_none hwf hmode, exec_update_of_none hwf hmode']
    exact raise_sameButOpen hmode k c _
  | finalize =>
    rw [exec_finalize_of_none hwf hmode, exec_finalize_of_none hwf hmode']
    exact raise_sameButOpen hmode k c _
  | compress len flg =>
    rw [exec_compress_of_le s flg hwf, exec_compress_of_le _ flg hwf]
    exact sameButOpen_of_none
      (t := { s with dout := compressWide s.ccv (bufBytes s.din) len.toNat s.ctr flg }.complete) hmode k c
  | mineHash => exact sameButOpen_of_none (t := s.mineHash.complete) hmode k c
  | mineCheck => exact sameButOpen_of_none (t := s.mineCheck.complete) hmode k c
  | mineTry => exact sameButOpen_of_none (t := s.mineHash.mineCheck.complete) hmode k c

theorem runWord_sameButOpen (w : Word) {s : State} (hmode : s.mode = .none) (k c : ChainingValue) :
    SameButOpen (runWord w s) (runWord w (s.withOpen k c)) := by
  cases hd : decode w with
  | error e =>
    rw [runWord_error w s e hd, runWord_error w _ e hd]
    exact raise_sameButOpen hmode k c _
  | ok i =>
    rw [runWord_ok w s i hd, runWord_ok w _ i hd]
    exact exec_sameButOpen (decode_wellFormed hd) hmode k c

/-! ### The obligations -/

/-- Settles O40: the fields a command word may write are DOUT, MHASH, the session, its mode, CHECK, ERR and BUSY. -/
theorem noCommandWritesOperands : Obligations.NoCommandWritesOperands := by
  intro w s t h
  obtain ⟨_, _, _, _, _, _, hwrites⟩ := runWord_writes w s
  obtain rfl := next_inj h hwrites
  simp [State.SameOperands, State.SameHost]

/-- Settles O46: in mode NONE a command raises, leaves the session alone, or starts a new one. -/
theorem openResetValuesUnobservable : Obligations.OpenResetValuesUnobservable := by
  intro s k c w hmode
  obtain ⟨t, k', c', hrun, hrun', hsession⟩ := runWord_sameButOpen w hmode k c
  exact ⟨t, k', c', hrun, hrun', hsession, readReg_withOpen s k c⟩

/-- Settles O47: of the session's registers each shows one of the five quantities. -/
theorem hiddenStateNotReadable : Obligations.HiddenStateNotReadable := fun s _ hcounter hbuf hblocks hstack hflags =>
  readReg_session_congr s hcounter hbuf hblocks hstack hflags

end Sys2Proof.Machine
end

section
/-! SUPPORT. The obligations about accesses to the register window (20_memory.md R60 to R63), and the laws they need: the
rows of the window's map, reads and writes taken while BUSY = 0, and accesses that B3C refuses. -/

namespace Sys2Proof.Machine

/-! ### The window's map (R22) -/

theorem windowMap_offsets : windowMap.map (fun e => e.offset) = (List.range 128).map fun k => 4 * k := by
  decide +kernel

/-- Every register has its row: the row at its offset. -/
theorem exists_windowMap_row (r : RegName) : ∃ e ∈ windowMap, e.reg = r := by
  have hlt := offset_lt r
  have hmod := offset_mod r
  have hmem : r.offset ∈ windowMap.map fun e => e.offset := by
    rw [windowMap_offsets, List.mem_map]
    exact ⟨r.offset / 4, List.mem_range.2 (by omega), by omega⟩
  obtain ⟨e, he, hoffset⟩ := List.mem_map.1 hmem
  obtain ⟨hreg, -⟩ := windowMap_row e he
  exact ⟨e, he, offset_injective e.reg r (hreg.symm.trans hoffset)⟩

/-! ### Accesses while idle (R61) -/

theorem memRead_reg_of_idle (s : State) (r : RegName) (h : s.busy = false) :
    memRead (Config.base + r.offset) .w32 s = .next { s with answer := some (.data (readReg s r)) } := by
  have hread : readAt s r.offset = s.answerWith (.data (readReg s (regAt r.offset))) :=
    if_neg fun ⟨hbusy, _⟩ => Bool.false_ne_true (h.symm.trans hbusy)
  rw [memRead_reg, hread, regAt_offset]
  rfl

theorem writeReg_of_not_isRW (s : State) {r : RegName} (v : Word) (h : r.isRW = false) : writeReg s r v = s := by
  cases r with
  | id | status | cmd | infoCtrLo | infoCtrHi | infoChunk | infoStack | dout | reserved => rfl
  | seekLo | seekHi | ctrLo | ctrHi | key | ccv | nonce | din | mhash | target | hdr => cases h

@[simp] theorem readReg_answerWith (s : State) (a : Answer) (r : RegName) :
    readReg (s.answerWith a) r = readReg s r := rfl

/-- What a write leaves in the register it is at. -/
theorem readReg_writeReg_at (s : State) (r : RegName) (v : Word) :
    readReg (writeReg s r v) r = if r.isRW then v else readReg s r := by
  split_ifs with hrw
  · exact readReg_writeReg_same s r v hrw
  · rw [writeReg_of_not_isRW s v (Bool.eq_false_of_not_eq_true hrw)]

/-! ### Accesses that B3C refuses (R60, R62, R63) -/

theorem memRead_of_not_accepts (s : State) {addr : Nat} {width : AccessWidth} (hin : inWindow addr)
    (h : ¬ accepts addr width) : memRead addr width s = .next { s with answer := some (.busError addr) } :=
  (if_neg (not_not_intro hin)).trans (if_pos h)

theorem memWrite_of_not_accepts (s : State) {addr : Nat} {width : AccessWidth} (v : Word) (hin : inWindow addr)
    (h : ¬ accepts addr width) : memWrite addr width v s = .next { s with answer := some (.busError addr) } :=
  (if_neg (not_not_intro hin)).trans (if_pos h)

/-! ### The obligations -/

/-- Settles O48: a row's offset is its register's, and a read by name answers the register. -/
theorem idleReadsAnswerRegisters : Obligations.IdleReadsAnswerRegisters := by
  refine ⟨windowMap_offsets, exists_windowMap_row, fun s e he hidle => ?_, fun s => ?_⟩
  · obtain ⟨hoffset, -⟩ := windowMap_row e he
    rw [hoffset]
    exact memRead_reg_of_idle s e.reg hidle
  · simp [readReg, idWord]

/-- Settles O49: a write by name, and the access column. -/
theorem idleWritesUpdateOneRegister : Obligations.IdleWritesUpdateOneRegister := by
  intro s e he v hidle hcmd hstatus
  obtain ⟨hoffset, hrw⟩ := windowMap_row e he
  obtain ⟨hmode, hsession, herr, hchk, hwbusy, hrunning, hhost, -, hfree⟩ := writeReg_frame s e.reg v
  refine ⟨(writeReg s e.reg v).answerWith .done, ?_, ?_, fun r hr => readReg_writeReg_other s e.reg r v hr,
    ⟨hmode, hsession⟩, herr, hchk, hwbusy, hrunning, hhost, hfree, rfl⟩
  · rw [hoffset, memWrite_reg_of_idle s e.reg v hidle, writeIdle_reg s e.reg v hcmd hstatus]
  · rw [readReg_answerWith, hrw, readReg_writeReg_at]

/-- Settles O54: the access is in the window and is not one B3C takes. -/
theorem busErrorsChangeNothing : Obligations.BusErrorsChangeNothing := by
  intro s off width v hlt hbad
  have hin : inWindow (Config.base + off) := ⟨Nat.le_add_right _ _, by omega⟩
  have hrefused : ¬ accepts (Config.base + off) width := by
    rintro ⟨hwidth, halign⟩
    rw [Nat.add_sub_cancel_left] at halign
    exact hbad.elim (· hwidth) (· halign)
  exact ⟨_, rfl, rfl, memRead_of_not_accepts s hin hrefused, memWrite_of_not_accepts s v hin hrefused⟩

/-- Settles O55: the first check of an access. -/
theorem outsideWindowStops : Obligations.OutsideWindowStops := by
  intro s addr width v h
  have hout : ¬ inWindow addr := by omega
  exact ⟨if_pos hout, if_pos hout⟩

end Sys2Proof.Machine
end

section
/-! SUPPORT. The obligations about the step and the host (70_reset_and_hazards.md R280 to R291), and the laws they need: a
host statement served while a command runs, the registers after the reset input, and WAIT. -/

namespace Sys2Proof.Machine

/-! ### The host while a command runs (R284, R285) -/

/-- `t` is `s` with other values in the host's own fields, and WBUSY set or as it was. -/
def HostOnly (s t : State) : Prop :=
  ∃ host answer free wbusy, (s.wbusy = true → wbusy = true)
    ∧ t = { s with host := host, answer := answer, free := free, wbusy := wbusy }

theorem hostOnly_answerWith (s : State) (a : Answer) : HostOnly s (s.answerWith a) :=
  ⟨s.host, some a, s.free, s.wbusy, id, rfl⟩

theorem memRead_hostOnly {addr : Nat} {width : AccessWidth} {s t : State} (h : memRead addr width s = .next t) :
    HostOnly s t := by
  unfold memRead at h
  split_ifs at h <;> obtain rfl := Host.Outcome.next.inj h
  · obtain ⟨v, f, hread⟩ := readAt_frame s (addr - Config.base)
    rw [hread]
    exact ⟨s.host, _, f, s.wbusy, id, rfl⟩
  · exact hostOnly_answerWith s _

theorem memWrite_hostOnly {addr : Nat} {width : AccessWidth} {v : Word} {s t : State} (hbusy : s.busy = true)
    (h : memWrite addr width v s = .next t) : HostOnly s t := by
  unfold memWrite at h
  split_ifs at h <;> obtain rfl := Host.Outcome.next.inj h
  · rw [writeAt_of_busy s _ v hbusy]
    exact ⟨s.host, _, s.free, true, fun _ => rfl, rfl⟩
  · exact hostOnly_answerWith s _

theorem serve_hostOnly {stmt : HostStmt} {s t : State} (hbusy : s.busy = true) (hreset : stmt ≠ .resetInput)
    (h : serve stmt s = .next t) : HostOnly s t := by
  cases stmt with
  | read addr width => exact memRead_hostOnly h
  | write addr width v => exact memWrite_hostOnly hbusy h
  | resetInput => exact absurd rfl hreset
  | idle =>
    obtain rfl := Host.Outcome.next.inj h
    exact ⟨s.host, s.answer, s.free, s.wbusy, id, rfl⟩
  | wait =>
    obtain rfl := Host.Outcome.next.inj h
    rw [if_pos hbusy]
    exact ⟨_, _, s.free, s.wbusy, id, rfl⟩
  | skipIf mask n =>
    obtain rfl := Host.Outcome.next.inj h
    split
    · exact ⟨_, _, s.free, s.wbusy, id, rfl⟩
    · exact hostOnly_answerWith s _

/-- A step with cycles to pass brings the command one nearer, and serves the host. -/
theorem step_running_hostOnly {s t : State} {w : Word} {n : Nat} (hrun : s.running = some ⟨w, n + 1⟩)
    (hreset : s.host.head? ≠ some .resetInput) (h : step s = .next t) :
    HostOnly { s with running := some ⟨w, n⟩ } t := by
  cases hhost : s.host with
  | nil =>
    have hcycle : hostCycle { s with running := some ⟨w, n⟩ } = .next { s with running := some ⟨w, n⟩ } := by
      simp only [hostCycle, hhost]
    obtain rfl := next_inj h ((step_running s w n hrun).trans hcycle)
    exact ⟨s.host, s.answer, s.free, s.wbusy, id, rfl⟩
  | cons stmt rest =>
    rw [step_running_cons hrun hhost] at h
    obtain ⟨host, answer, free, wbusy, hw, rfl⟩ :=
      serve_hostOnly (s := { s with running := some ⟨w, n⟩, host := rest }) rfl (by simpa [hhost] using hreset) h
    exact ⟨host, answer, free, wbusy, hw, rfl⟩

/-! ### The reset input (R280) -/

/-- After the reset input every register but ID reads 0. -/
theorem readReg_resetInput (s : State) {r : RegName} (hr : r ≠ .id) : readReg s.resetInput r = 0 := by
  have hblock : readReg s.resetInput r = readReg State.reset r := rfl
  rw [hblock]
  cases r with
  | id => exact absurd rfl hr
  | status => exact statusFieldsAndClear.1
  | infoCtrLo | infoCtrHi | infoChunk | infoStack => exact (infoRegistersShowSession.2 _ (by simp)).2
  | key | ccv | din | dout | mhash | target | hdr => simp [readReg, State.reset]
  | cmd | seekLo | seekHi | ctrLo | ctrHi | nonce | reserved => rfl

/-! ### WAIT (R100, R290) -/

theorem core_run_succ (M : Host.Core) {s t : M.State} (h : M.step s = .next t) (k : Nat) :
    M.run (k + 1) s = M.run k t := by
  rw [Host.Core.run, h]

/-- WAIT while a command has cycles to pass: it stays next, and the command is one cycle nearer. -/
theorem step_wait_running {s : State} {w : Word} {n : Nat} {rest : List HostStmt}
    (hrun : s.running = some ⟨w, n + 1⟩) (hhost : s.host = .wait :: rest) :
    ∃ t, step s = .next t ∧ t.running = some ⟨w, n⟩ ∧ t.host = .wait :: rest :=
  ⟨_, step_running_cons hrun hhost, rfl, rfl⟩

/-- The step that completes the command serves no statement. -/
theorem step_wait_due {s : State} {w : Word} {rest : List HostStmt} (hrun : s.running = some ⟨w, 0⟩)
    (hhost : s.host = .wait :: rest) : ∃ t, step s = .next t ∧ t.running = none ∧ t.host = .wait :: rest := by
  obtain ⟨_, _, _, _, _, _, hword⟩ := runWord_writes w s
  exact ⟨_, (step_of_due s w hrun).trans hword, rfl, hhost⟩

/-- WAIT with no command in progress: it ends, on a read that shows BUSY = 0. -/
theorem step_wait_idle {s : State} {rest : List HostStmt} (hrun : s.running = none) (hhost : s.host = .wait :: rest) :
    ∃ t, step s = .next t ∧ t.running = none ∧ t.host = rest ∧ t.answer = some (.data t.statusWord) := by
  have hserve : serve .wait { s with host := rest } = .next { s with host := rest }.readStatus := by
    simp [serve, State.busy, hrun]
  exact ⟨_, (step_idle s hrun).trans ((hostCycle_cons hhost).trans hserve), hrun, rfl, rfl⟩

theorem run_wait {w : Word} {n : Nat} {rest : List HostStmt} {s : State} (hrun : s.running = some ⟨w, n⟩)
    (hhost : s.host = .wait :: rest) :
    ∃ t, core.run (n + 2) s = .next t ∧ t.running = none ∧ t.host = rest
      ∧ t.answer = some (.data t.statusWord) := by
  induction n generalizing s with
  | zero =>
    obtain ⟨u, hstep, hrun', hhost'⟩ := step_wait_due hrun hhost
    obtain ⟨t, hstep', ht⟩ := step_wait_idle hrun' hhost'
    exact ⟨t, (core_run_succ core hstep 1).trans (core_run_succ core hstep' 0), ht⟩
  | succ n ih =>
    obtain ⟨u, hstep, hrun', hhost'⟩ := step_wait_running hrun hhost
    obtain ⟨t, ht⟩ := ih hrun' hhost'
    exact ⟨t, (core_run_succ core hstep (n + 2)).symm ▸ ht⟩

/-! ### The obligations -/

/-- Settles O45: each step with cycles to pass keeps WAIT next, the next completes the command, and the last reads
BUSY = 0. -/
theorem waitEnds : Obligations.WaitEnds :=
  ⟨fun _ _ _ _ => run_wait, fun s => ⟨_, memRead_id_or_status s (.inr rfl)⟩⟩

/-- Settles O56: every register reads its reset value, and a step takes the event. -/
theorem resetInputRestoresReset : Obligations.ResetInputRestoresReset := by
  exact ⟨fun s => ⟨s.resetInput, rfl, rfl, rfl, fun _ => readReg_resetInput s, rfl, rfl, rfl, rfl, rfl, rfl, rfl, rfl,
    rfl, rfl⟩, fun _ _ => step_resetInput⟩

/-- Settles O57: a host cycle with no statement left. -/
theorem idleMachineWaits : Obligations.IdleMachineWaits := by
  have hwaits : ∀ s : State, s.running = none → s.host = [] → step s = .next s := fun s hrun hhost => by
    rw [step_idle s hrun, hostCycle, hhost]
  exact ⟨hwaits, hwaits State.reset rfl rfl⟩

/-- Settles O58: the host statement served writes the host's own fields and WBUSY alone. -/
theorem operandsStableWhileBusy : Obligations.OperandsStableWhileBusy := by
  intro s t w n hrun hreset h
  obtain ⟨_, _, _, _, hwbusy, rfl⟩ := step_running_hostOnly hrun hreset h
  exact ⟨rfl, by simp [State.SameOperands], ⟨rfl, rfl⟩, rfl, rfl, rfl, rfl, hwbusy⟩

end Sys2Proof.Machine
end

section
/-! SUPPORT. The obligation about HASH_BYTES and LOAD_DIN (30_encoding.md R101, R102), and the laws it needs: the pieces of
an input, the command word of an UPDATE as a number, and the DIN words LOAD_DIN writes. -/

namespace Sys2Proof.Machine

/-! ### The pieces of an input (R102) -/

theorem pieces_nil (fuel : Nat) : pieces fuel [] = [] := by cases fuel <;> rfl

theorem pieces_of_ne_nil (fuel : Nat) {b : List Byte} (h : b ≠ []) :
    pieces (fuel + 1) b = b.take 64 :: pieces fuel (b.drop 64) := if_neg h

/-- With fuel for every byte the pieces are the input. -/
theorem pieces_flatten {fuel : Nat} {b : List Byte} (h : b.length ≤ fuel) : (pieces fuel b).flatten = b := by
  induction fuel generalizing b with
  | zero =>
    obtain rfl := List.eq_nil_of_length_eq_zero (Nat.le_zero.1 h)
    rfl
  | succ fuel ih =>
    by_cases hb : b = []
    · rw [hb, pieces_nil, List.flatten_nil]
    · rw [pieces_of_ne_nil fuel hb, List.flatten_cons, ih (by rw [List.length_drop]; omega), List.take_append_drop]

theorem pieces_length {fuel : Nat} {b p : List Byte} (h : p ∈ pieces fuel b) : 1 ≤ p.length ∧ p.length ≤ 64 := by
  induction fuel generalizing b with
  | zero => cases h
  | succ fuel ih =>
    by_cases hb : b = []
    · rw [hb, pieces_nil] at h
      cases h
    · rw [pieces_of_ne_nil fuel hb, List.mem_cons] at h
      rcases h with rfl | h
      · have := List.length_pos_of_ne_nil hb
        rw [List.length_take]
        omega
      · exact ih h

/-- A piece that others follow is a whole one, since input is left after it. -/
theorem pieces_dropLast_length {fuel : Nat} {b p : List Byte} (h : p ∈ (pieces fuel b).dropLast) : p.length = 64 := by
  induction fuel generalizing b with
  | zero => cases h
  | succ fuel ih =>
    by_cases hb : b = []
    · rw [hb, pieces_nil] at h
      cases h
    · rw [pieces_of_ne_nil fuel hb] at h
      by_cases hrest : pieces fuel (b.drop 64) = []
      · rw [hrest] at h
        cases h
      · rw [List.dropLast_cons_of_ne_nil hrest, List.mem_cons] at h
        rcases h with rfl | h
        · have hne : b.drop 64 ≠ [] := fun hnil => hrest (by rw [hnil, pieces_nil])
          have := List.length_pos_of_ne_nil hne
          rw [List.length_drop] at this
          rw [List.length_take]
          omega
        · exact ih h

/-! ### The statements for a piece (R99, R101) -/

/-- The command word of an UPDATE as a number (R98). -/
theorem encode_update_ofNat {n : Nat} (h : n ≤ 64) :
    encode (.update (BitVec.ofNat 8 n)) = BitVec.ofNat 32 (0x10 + 256 * n) := by
  obtain ⟨hrsv, hop, hlen, hflg⟩ := encodeFields_fields 0x10 (BitVec.ofNat 8 n) 0
  apply BitVec.eq_of_toNat_eq
  rw [encode, word_toNat_eq_fields, hrsv, hop, hlen, hflg]
  simp
  omega

theorem issue_update {n : Nat} (h : n ≤ 64) :
    issue (.update (BitVec.ofNat 8 n))
      = [.write (Config.base + 0x008) .w32 (BitVec.ofNat 32 (0x10 + 256 * n)), .wait] := by
  rw [issue, encode_update_ofNat h]
  rfl

/-- LOAD_DIN writes word `i` of the string at DIN's offset `4i`. -/
theorem loadDin_eq_map_range {p : List Byte} (h : p.length ≤ 64) :
    loadDin p = (List.range ((p.length + 3) / 4)).map fun i =>
      .write (Config.base + (0x080 + 4 * i)) .w32 (le32 p (4 * i)) := by
  have hwords : (List.range ((p.length + 3) / 4)) = ((List.finRange 16).map Fin.val).take ((p.length + 3) / 4) := by
    rw [List.map_coe_finRange_eq_range, List.take_range, Nat.min_eq_left (by omega)]
  rw [hwords, loadDin, wrBytes, List.map_take, List.map_map]
  rfl

/-! ### The obligation -/

/-- Settles O60: HASH_BYTES piece by piece, with the word of each UPDATE as a number, and LOAD_DIN word by word. -/
theorem hashBytesCoversInput : Obligations.HashBytesCoversInput := by
  refine ⟨fun b => ⟨?_, pieces_flatten (Nat.le_refl _), fun _ => pieces_length, fun _ => pieces_dropLast_length⟩,
    fun p hp => ⟨fun i => le32 p (4 * i), loadDin_eq_map_range hp, fun i j hj => wordByte_le32 p (4 * i) hj⟩⟩
  rw [hashBytes]
  refine List.flatMap_congr fun p hp => ?_
  rw [hashPiece, issue_update (pieces_length hp).2]

end Sys2Proof.Machine
end
